-- ==== Sys2Proof/Word.lean ====
section
/-! DEFINITION. The fixed widths of the machine (00_scope.md R4): the accumulator and the two fields
of a cell are bytes, an address and the program counter have 7 bits, a cell has 16 bits. -/

namespace Sys2Proof

/-- An 8-bit unsigned value: the accumulator, an opcode field, an operand field (R11, R16). -/
abbrev Byte := BitVec 8

/-- A cell address, 0 to 127, and the program counter (R12, R30). -/
abbrev Addr := BitVec 7

/-- A whole memory cell, opcode over operand (R16). -/
abbrev CellWord := BitVec 16

end Sys2Proof
end

