-- ==== Sys2Proof/Config.lean ====
section
/-! DEFINITION. What an implementation of the machine fixes: the parameters of 00_scope.md R4 and the
one OPEN parameter of 92_eei_decisions.md that the machine can observe. -/

namespace Sys2Proof.Config

/-- `MEM_CELLS`: the number of memory cells (R4). -/
abbrev memCells : Nat := 128

/-- `ADDR_MAX`: the highest legal address (R4). -/
abbrev addrMax : Nat := 127

/-- The highest operand literal a source text may hold (R65). -/
abbrev operandMax : Nat := 255

/-- What a byte of memory that nothing has written reads as: every cell is the zero instruction after
power-on (R15, R25). -/
def unlisted : Byte := 0

/-- The address of the first fetch after run-reset (R38, R152). -/
def entryPoint : Addr := 0

/-- `JC_CHECKS_UNTAKEN_TARGET`, the OPEN parameter of 92_eei_decisions.md D4, at the spec's default.
Unsafe toward the other reading of the source (log entry 8). -/
def jcChecksUntakenTarget : Bool := false

end Sys2Proof.Config
end

