-- ==== Sys2Proof/Syntax.lean ====
section
/-! DEFINITION. The instructions: one constructor per row of spec/opcode_table.json, in the table's
order (30_encoding.md R53). -/

namespace Sys2Proof

/-- The 17 instructions (R53). Every cell stores an 8-bit operand, also where execution ignores it
(R54), so every constructor carries one. -/
inductive Instr where
  /-- opcode 0, no-op; the operand is the cell's payload (R80) -/
  | data (n : Byte)
  /-- opcode 1, stop; operand ignored (R81) -/
  | hlt (n : Byte)
  /-- opcode 2, emit `acc` in the plain format; operand ignored (R82) -/
  | print (n : Byte)
  /-- opcode 3, no-op; operand ignored (R83) -/
  | sleep (n : Byte)
  /-- opcode 4, load a literal (R90) -/
  | ldc (n : Byte)
  /-- opcode 5, load from the address `n` (R91) -/
  | lda (n : Byte)
  /-- opcode 6, store to the address `n` (R92) -/
  | sta (n : Byte)
  /-- opcode 7, add the byte at `n` (R101) -/
  | add (n : Byte)
  /-- opcode 8, subtract the byte at `n` (R102) -/
  | sub (n : Byte)
  /-- opcode 9, jump to `n` (R111) -/
  | jmp (n : Byte)
  /-- opcode 10, compare equal with the byte at `n` (R112) -/
  | cmpe (n : Byte)
  /-- opcode 11, jump to `n` if the condition flag is true (R113) -/
  | jc (n : Byte)
  /-- opcode 12, compare greater with the byte at `n` (R114) -/
  | cmpgr (n : Byte)
  /-- opcode 13, compare less with the byte at `n` (R115) -/
  | cmple (n : Byte)
  /-- opcode 14, negate `acc`; operand ignored (R103) -/
  | neg (n : Byte)
  /-- opcode 15, bitwise and with the byte at `n` (R104) -/
  | and (n : Byte)
  /-- opcode 18, emit `acc` in the framed format; operand ignored (R84) -/
  | pout (n : Byte)
deriving DecidableEq, Repr

end Sys2Proof
end

