-- ==== Sys2Proof/WellFormed.lean ====
section
/-! DEFINITION. The checks on instructions. A pair of numbers is the small value type of 10_state.md
R16 and 30_encoding.md R50, before it is known to fit a cell: its opcode must have a mnemonic (R55) and
its operand must fit eight bits (R65). An `Instr` meets both by its type; what it can still break is
that an operand used as an address lies in 0..127 (20_memory.md R31). -/

namespace Sys2Proof

/-- The pair `(opcode, operand)` of R16 as plain numbers. -/
structure RawInstr where
  opcode : Nat
  operand : Nat
deriving DecidableEq, Repr

/-- The opcode index has a mnemonic: 0 to 15 and 18 (R53, R55). -/
def RawInstr.opcodeNamed (r : RawInstr) : Bool :=
  decide (r.opcode ≤ 15) || decide (r.opcode = 18)

/-- The operand fits its field, 0 to 255 (R50, R65). -/
def RawInstr.operandFits (r : RawInstr) : Bool :=
  decide (r.operand ≤ Config.operandMax)

/-- The pair stands for an instruction. -/
def RawInstr.wellFormed (r : RawInstr) : Bool :=
  r.opcodeNamed && r.operandFits

/-- The operand, where the instruction uses it as an address (R52 (b)): a data address or a jump
target. For `jc` it is the target of the taken jump. -/
def Instr.addressOperand : Instr → Option Byte
  | .lda n => some n
  | .sta n => some n
  | .add n => some n
  | .sub n => some n
  | .jmp n => some n
  | .cmpe n => some n
  | .jc n => some n
  | .cmpgr n => some n
  | .cmple n => some n
  | .and n => some n
  | .data _ => none
  | .hlt _ => none
  | .print _ => none
  | .sleep _ => none
  | .ldc _ => none
  | .neg _ => none
  | .pout _ => none

/-- What a program must respect of its operands (70_reset_and_hazards.md R156 (e)): an address lies in
0..127. -/
def Instr.wellFormed (i : Instr) : Bool :=
  match i.addressOperand with
  | some n => decide (n.toNat ≤ Config.addrMax)
  | none => true

end Sys2Proof
end

