-- ==== Sys2Proof/Decode.lean ====
section
/-! DEFINITION. The encoding (30_encoding.md R50 to R57): the two fields of a cell, the opcode map of
R53 as a table, the decoder, and the encoder written from the same map. -/

namespace Sys2Proof

/-- Why bytes do not decode. -/
inductive DecodeError where
  /-- the opcode field is 16, 17 or 19 to 255 (R55) -/
  | illegalOpcode (op : Byte)
  /-- fewer than the two bytes of a cell were given; a fetch always gives two -/
  | truncated
deriving DecidableEq, Repr

/-- `cell[15:8]` (R50). -/
def opcodeOf (w : CellWord) : Byte := w.extractLsb' 8 8

/-- `cell[7:0]` (R50). -/
def operandOf (w : CellWord) : Byte := w.extractLsb' 0 8

/-- `(o, n)` written as a cell, `o ++ n`, that is `o * 256 + n` (R5). -/
def packCell (op operand : Byte) : CellWord := BitVec.ofNat 16 (op.toNat * 256 + operand.toNat)

/-- A cell as the two bytes of a memory image, opcode byte first (R35; log entry 1). -/
def cellBytes (w : CellWord) : List Byte := [opcodeOf w, operandOf w]

/-- The dispatch of R22 and R53 on the two fields: the opcode alone selects the instruction. -/
def decodeFields (op n : Byte) : Except DecodeError Instr :=
  match op.toNat with
  | 0 => .ok (.data n)
  | 1 => .ok (.hlt n)
  | 2 => .ok (.print n)
  | 3 => .ok (.sleep n)
  | 4 => .ok (.ldc n)
  | 5 => .ok (.lda n)
  | 6 => .ok (.sta n)
  | 7 => .ok (.add n)
  | 8 => .ok (.sub n)
  | 9 => .ok (.jmp n)
  | 10 => .ok (.cmpe n)
  | 11 => .ok (.jc n)
  | 12 => .ok (.cmpgr n)
  | 13 => .ok (.cmple n)
  | 14 => .ok (.neg n)
  | 15 => .ok (.and n)
  | 18 => .ok (.pout n)
  | _ => .error (.illegalOpcode op)

/-- The decoder over a cell. -/
def decodeCell (w : CellWord) : Except DecodeError Instr :=
  decodeFields (opcodeOf w) (operandOf w)

/-- The decoder over bytes: one cell, two bytes, and the rest of the list. -/
def decode : List Byte → Except DecodeError (Instr × List Byte)
  | op :: n :: rest =>
    match decodeFields op n with
    | .ok i => .ok (i, rest)
    | .error e => .error e
  | _ => .error .truncated

/-- The opcode field of an instruction (R53). -/
def Instr.opcode : Instr → Byte
  | .data _ => 0x00
  | .hlt _ => 0x01
  | .print _ => 0x02
  | .sleep _ => 0x03
  | .ldc _ => 0x04
  | .lda _ => 0x05
  | .sta _ => 0x06
  | .add _ => 0x07
  | .sub _ => 0x08
  | .jmp _ => 0x09
  | .cmpe _ => 0x0A
  | .jc _ => 0x0B
  | .cmpgr _ => 0x0C
  | .cmple _ => 0x0D
  | .neg _ => 0x0E
  | .and _ => 0x0F
  | .pout _ => 0x12

/-- The operand field of an instruction. -/
def Instr.operand : Instr → Byte
  | .data n => n
  | .hlt n => n
  | .print n => n
  | .sleep n => n
  | .ldc n => n
  | .lda n => n
  | .sta n => n
  | .add n => n
  | .sub n => n
  | .jmp n => n
  | .cmpe n => n
  | .jc n => n
  | .cmpgr n => n
  | .cmple n => n
  | .neg n => n
  | .and n => n
  | .pout n => n

/-- The cell of an instruction. -/
def encodeCell (i : Instr) : CellWord := packCell i.opcode i.operand

/-- The bytes of an instruction, opcode byte first. -/
def encode (i : Instr) : List Byte := cellBytes (encodeCell i)

/-- An instruction as the pair of numbers of R16. -/
def Instr.raw (i : Instr) : RawInstr := ⟨i.opcode.toNat, i.operand.toNat⟩

/-- What a slot of the opcode map is (R53): a named operation with its `has_operand` flag, or a
reserved index, an explicit tag and not a hole (R55). -/
inductive Slot where
  | named (name : List Char) (hasOperand : Bool)
  | reserved
deriving DecidableEq, Repr

/-- The 19 slots of the opcode map, index 0 first (R53). -/
def opcodeTable : List Slot :=
  [ .named ['d', 'a', 't', 'a'] true,
    .named ['h', 'l', 't'] false,
    .named ['p', 'r', 'i', 'n', 't'] false,
    .named ['s', 'l', 'e', 'e', 'p'] true,
    .named ['l', 'd', 'c'] true,
    .named ['l', 'd', 'a'] true,
    .named ['s', 't', 'a'] true,
    .named ['a', 'd', 'd'] true,
    .named ['s', 'u', 'b'] true,
    .named ['j', 'm', 'p'] true,
    .named ['c', 'm', 'p', 'e'] true,
    .named ['j', 'c'] true,
    .named ['c', 'm', 'p', 'g', 'r'] true,
    .named ['c', 'm', 'p', 'l', 'e'] true,
    .named ['n', 'e', 'g'] false,
    .named ['a', 'n', 'd'] true,
    .reserved,
    .reserved,
    .named ['p', 'o', 'u', 't'] false ]

/-- The slot an opcode field selects; `none` for the indices above 18, which are not in the table. -/
def slotOf (op : Byte) : Option Slot := opcodeTable[op.toNat]?

/-- The index of the first slot of a list that carries the name, counted from `k`. -/
def findName (name : List Char) : Nat → List Slot → Option Nat
  | _, [] => none
  | k, .named nm _ :: rest => if nm = name then some k else findName name (k + 1) rest
  | k, .reserved :: rest => findName name (k + 1) rest

/-- The mnemonic of an instruction, from the table. -/
def Instr.mnemonic (i : Instr) : List Char :=
  match slotOf i.opcode with
  | some (.named nm _) => nm
  | _ => []

/-- The number `w`, of `nbits` bits and zero above them, as a cell: bit 0 is the cell's bit 0. -/
def tableCell (nbits w : Nat) : CellWord := BitVec.ofNat 16 (w % 2 ^ nbits)

/-- The instruction the decoder reads from a table row's bits. -/
def decodeTableWord (nbits w : Nat) : Option Instr :=
  match decode (cellBytes (tableCell nbits w)) with
  | .ok (i, _) => some i
  | .error _ => none

end Sys2Proof
end

