-- ==== Sys2Proof/Machine/State.lean ====
section
/-! DEFINITION. The state of the machine as plain data (10_state.md R10 to R20), the reasons a step can
stop, and the state after reset. -/

namespace Sys2Proof.Machine

/-- The seven fault kinds of the spec, in the order of their codes (60_exceptions.md R120). A fault of
the spec is a NEXT state whose run state records it; it is not a stop of the model (log entry 5). -/
inductive FaultKind where
  /-- code 1, the loader's only: a digit was expected (R121) -/
  | inputMistake
  /-- code 2: an unnamed opcode was dispatched, or an unknown mnemonic was loaded (R122) -/
  | illegalOpcode
  /-- code 3: an operand used as an address, or a load address, is above 127 (R123) -/
  | illegalAddress
  /-- code 4, dormant: nothing raises it (R124) -/
  | invalidOpcodeOrAddressInput
  /-- code 5, the loader's only: an operand literal is above 255 (R125) -/
  | invalidOperand
  /-- code 6: a sum above 255 or a difference below 0 (R126) -/
  | overflowUnderflow
  /-- code 7, dormant: nothing raises it (R127) -/
  | cassetteError
deriving DecidableEq, Repr

/-- The sub-cause of a fault record (R130): `over` and `under` for `overflowUnderflow`, else `none`. -/
inductive SubCause where
  | over
  | under
  | none
deriving DecidableEq, Repr

/-- The fault record of R130. Its code is a function of its kind (`FaultRecord.code`), stored once. -/
structure FaultRecord where
  kind : FaultKind
  sub : SubCause
  faultPc : Addr
deriving DecidableEq, Repr

/-- The run state of R14. -/
inductive RunState where
  /-- powered, not started: memory may be loaded -/
  | idle
  /-- the source's `running` flag is true -/
  | running
  /-- terminal, entered only by `hlt` -/
  | halted
  /-- terminal, entered only by a `raise` -/
  | faulted (record : FaultRecord)
deriving DecidableEq, Repr

/-- The two kinds of output event (R17). -/
inductive Channel where
  | print
  | pout
deriving DecidableEq, Repr

/-- An output event (R17): a channel and the accumulator value at the time. -/
structure OutEvent where
  channel : Channel
  value : Byte
deriving DecidableEq, Repr

/-- The 128 cells as a sparse list of bytes. Cell `a` is the two bytes at the keys `2a` (opcode field)
and `2a + 1` (operand field), the image order of 20_memory.md R35 (log entry 1). -/
abbrev Memory := List Host.Cell

/-- The keys of a memory image: two bytes a cell. -/
def memKeys : Nat := 2 * Config.memCells

/-- The canonical form of a memory from the key `lo` on: keys strictly rising, below `memKeys`, and no
entry equal to what an unlisted key reads as. -/
def Memory.wfFrom : Nat → Memory → Bool
  | _, [] => true
  | lo, (k, v) :: rest =>
    decide (lo ≤ k) && decide (k < memKeys) && (v != Config.unlisted) && Memory.wfFrom (k + 1) rest

/-- The canonical form: equal memories are equal lists. -/
def Memory.wf (m : Memory) : Bool := Memory.wfFrom 0 m

/-- The complete architectural state (R10). -/
structure State where
  /-- the accumulator (R11) -/
  acc : Byte
  /-- the program counter: between steps, the address of the next cell to be fetched (R12) -/
  pc : Addr
  /-- the condition flag (R13) -/
  cond : Bool
  /-- the run state, with the fault record while faulted (R14) -/
  run : RunState
  /-- the 128 cells (R15, R16) -/
  mem : Memory
  /-- the output stream, oldest event first (R17) -/
  out : List OutEvent
deriving DecidableEq, Repr

/-- Where `step` takes no step, because the spec says that none is taken from there (R14, R23). Safe:
the model stops where the machine does nothing. No instruction ends in one of these. -/
inductive Fault where
  /-- raised by `step` while the machine is IDLE: powered but not started (R14); safe -/
  | notStarted
  /-- raised by `step` after `hlt`: HALTED is terminal (R14, R81); safe -/
  | alreadyHalted
  /-- raised by `step` after a fault: FAULTED is terminal (R14, R131); safe -/
  | alreadyFaulted (record : FaultRecord)
deriving DecidableEq, Repr

/-- What the model refuses by name. -/
inductive Refusal where
  /-- an instruction without a meaning; no arm of `exec` answers it in this model; safe -/
  | notModelled (mnemonic : String)
  /-- raised by `hostStep` for a `load` outside IDLE, which R139 does not accept; safe -/
  | loadWhileNotIdle
  /-- raised by `hostStep` for a `power_on` while RUNNING, when the host may not act (R21, R138); safe -/
  | powerOnWhileRunning
  /-- raised by `hostStep` for a `run_reset` while RUNNING, which R151 does not allow; safe -/
  | runResetWhileRunning
deriving DecidableEq, Repr

/-- The machine right after power-on (R150). -/
def State.powerOn : State :=
  { acc := 0, pc := 0, cond := false, run := .idle, mem := [], out := [] }

/-- The machine right after reset: power-on, then run-reset with nothing loaded (R25, R150, R151; log
entry 3). Every register is zero, memory is the zero cells, and the first fetch is at address 0. -/
def State.reset : State :=
  { acc := 0, pc := Config.entryPoint, cond := false, run := .running, mem := [], out := [] }

end Sys2Proof.Machine
end

