-- ==== Sys2Proof/Machine/Ops.lean ====
section
/-! DEFINITION. The shared operations: bytes and cells of memory (20_memory.md R30 to R34), the setters
of the registers, the increment of the fetch (10_state.md R22), output (R17), taking a fault
(60_exceptions.md R130) and the reset that leaves it (70_reset_and_hazards.md R151). -/

namespace Sys2Proof.Machine

/-! ### Bytes of a memory image -/

/-- The byte at a key. -/
def Memory.readByte : Memory → Nat → Byte
  | [], _ => Config.unlisted
  | (j, w) :: rest, k => if j = k then w else Memory.readByte rest k

/-- One entry, or nothing where the value is what an unlisted key reads as. -/
def Memory.entry (k : Nat) (v : Byte) : Memory :=
  if v = Config.unlisted then [] else [(k, v)]

/-- Write a byte, keeping the keys rising and listing no unlisted value. -/
def Memory.writeByte : Memory → Nat → Byte → Memory
  | [], k, v => Memory.entry k v
  | (j, w) :: rest, k, v =>
    if k < j then Memory.entry k v ++ (j, w) :: rest
    else if k = j then Memory.entry k v ++ rest
    else (j, w) :: Memory.writeByte rest k v

/-! ### Cells -/

/-- The key of a cell's opcode byte (R35). -/
def opcodeKey (a : Addr) : Nat := 2 * a.toNat

/-- The key of a cell's operand byte (R35). -/
def operandKey (a : Addr) : Nat := 2 * a.toNat + 1

/-- `mem[a]`, the whole cell (R34). -/
def Memory.readCell (m : Memory) (a : Addr) : CellWord :=
  packCell (m.readByte (opcodeKey a)) (m.readByte (operandKey a))

/-- `mem[a] <- w`, both fields: the loader's write and the `load` event (R66, R139). -/
def Memory.writeCell (m : Memory) (a : Addr) (w : CellWord) : Memory :=
  (m.writeByte (opcodeKey a) (opcodeOf w)).writeByte (operandKey a) (operandOf w)

/-- `MemRead(a, 8)`: the operand field, the opcode field ignored (R32). -/
def Memory.readData (m : Memory) (a : Addr) : Byte := m.readByte (operandKey a)

/-- `MemWrite(a, 8, v)`: the cell becomes `(0, v)` (R33). -/
def Memory.writeData (m : Memory) (a : Addr) (v : Byte) : Memory :=
  m.writeCell a (packCell 0 v)

/-! ### Registers -/

/-- `acc <- v` (R11). -/
def State.setAcc (s : State) (v : Byte) : State := { s with acc := v }

/-- `pc <- a` (R12). -/
def State.setPc (s : State) (a : Addr) : State := { s with pc := a }

/-- `cond <- b` (R13). -/
def State.setCond (s : State) (b : Bool) : State := { s with cond := b }

/-- `run <- r` (R14). -/
def State.setRun (s : State) (r : RunState) : State := { s with run := r }

/-- Replace the memory. -/
def State.setMem (s : State) (m : Memory) : State := { s with mem := m }

/-- `Emit(ch, acc)`: append an output event (R17). Output is always accepted (log entry 9). -/
def State.emit (s : State) (ch : Channel) : State := { s with out := s.out ++ [⟨ch, s.acc⟩] }

/-- The increment of the fetch, `pc <- (pc0 + 1) mod 128` (R22): it wraps from 127 to 0. -/
def State.advance (s : State) : State := s.setPc (s.pc + 1)

/-- The operand field of the cell at an address (R32). -/
def State.readData (s : State) (a : Addr) : Byte := s.mem.readData a

/-- Store a data word (R33). -/
def State.writeData (s : State) (a : Addr) (v : Byte) : State := s.setMem (s.mem.writeData a v)

/-- The cell the program counter names (R34). -/
def State.fetchCell (s : State) : CellWord := s.mem.readCell s.pc

/-- The bytes of the instruction at the program counter. -/
def State.fetchBytes (s : State) : List Byte := cellBytes s.fetchCell

/-- Fetch and decode (R22, R34). -/
def State.fetchInstr (s : State) : Except DecodeError Instr :=
  match decode s.fetchBytes with
  | .ok (i, _) => .ok i
  | .error e => .error e

/-- Store a cell where the next step fetches it, and let the machine run. -/
def State.placeCell (s : State) (w : CellWord) : State :=
  (s.setMem (s.mem.writeCell s.pc w)).setRun .running

/-! ### Taking a fault, and reset -/

/-- The code of a fault kind, its place in the list (R120). -/
def FaultKind.code : FaultKind → Nat
  | .inputMistake => 1
  | .illegalOpcode => 2
  | .illegalAddress => 3
  | .invalidOpcodeOrAddressInput => 4
  | .invalidOperand => 5
  | .overflowUnderflow => 6
  | .cassetteError => 7

/-- The code of a fault record (R130). -/
def FaultRecord.code (r : FaultRecord) : Nat := r.kind.code

/-- `raise K(sub)` in the step of the instruction at `s.pc` (R130): the run state records the fault and
the address it was fetched from, `pc` holds the incremented value, nothing else changes. `s` is the
state before the step. -/
def State.raise (s : State) (k : FaultKind) (sub : SubCause) : State :=
  s.advance.setRun (.faulted ⟨k, sub, s.pc⟩)

/-- Run-reset (R151): registers zero, output empty, no fault record, memory kept. The machine has no
return from a fault (R131); this is the one way out of FAULTED. -/
def State.runReset (s : State) : State :=
  { acc := 0, pc := Config.entryPoint, cond := false, run := .running, mem := s.mem, out := [] }

end Sys2Proof.Machine
end

