-- ==== Sys2Proof/Machine/Operands.lean ====
section
/-! DEFINITION. The three uses of the one operand form (30_encoding.md R52). A literal is the operand
itself and an ignored operand is not looked at; an address passes through the address decoder. -/

namespace Sys2Proof.Machine

/-- What a meaning answers. -/
abbrev Result := Host.Outcome State Fault Refusal

/-- `CheckAddr(v)`: the 7-bit address, or nothing for 128 to 255 (20_memory.md R31). -/
def checkAddr (v : Byte) : Option Addr :=
  if v.toNat ≤ Config.addrMax then some (v.extractLsb' 0 7) else none

/-- An operand used as an address: IllegalAddress where `CheckAddr` fails, before anything else happens
(R31, R129). -/
def withAddress (n : Byte) (s : State) (k : Addr → State) : Result :=
  match checkAddr n with
  | some a => .next (k a)
  | none => .next (s.raise .illegalAddress .none)

/-- An operand used as the address of a data byte: `d = MemRead(CheckAddr(operand), 8)` (R5, R32). -/
def withData (n : Byte) (s : State) (k : Byte → State) : Result :=
  withAddress n s fun a => k (s.readData a)

end Sys2Proof.Machine
end

