-- ==== Sys2Proof/Machine/Flags.lean ====
section
/-! DEFINITION. What the arithmetic unit computes from two unsigned bytes: the outcome each comparison
writes to `cond` (43_compare_branch.md R110), and the results and range tests of the ALU
(42_arithmetic_logic.md R100), computed over the integers and narrowed at the end. -/

namespace Sys2Proof.Machine

/-- `cmpe`: the two bytes are equal (R112). -/
def flagEqual (acc d : Byte) : Bool := decide (acc.toNat = d.toNat)

/-- `cmpgr`: unsigned, strict (R114). -/
def flagGreater (acc d : Byte) : Bool := decide (d.toNat < acc.toNat)

/-- `cmple`: unsigned, strict, despite the name (R115). -/
def flagLess (acc d : Byte) : Bool := decide (acc.toNat < d.toNat)

/-- A value in the accumulator's range, narrowed to it; nothing outside 0..255 (R11, R100). -/
def narrow (x : Int) : Option Byte :=
  if 0 ≤ x ∧ x ≤ 255 then some (BitVec.ofInt 8 x) else none

/-- `add`: the integer sum, where it is at most 255 (R101). -/
def aluAdd (acc d : Byte) : Option Byte := narrow ((acc.toNat : Int) + (d.toNat : Int))

/-- `sub`: the integer difference, where it is at least 0 (R102). -/
def aluSub (acc d : Byte) : Option Byte := narrow ((acc.toNat : Int) - (d.toNat : Int))

/-- `neg`: `(256 - acc) mod 256` (R103; the spec's choice, 92_eei_decisions.md D3, log entry 7). -/
def aluNeg (acc : Byte) : Byte := BitVec.ofNat 8 ((256 - acc.toNat) % 256)

/-- `and`: bit by bit (R104). -/
def aluAnd (acc d : Byte) : Byte := acc &&& d

/-- The comparison instructions write their outcome to `cond` and change nothing else (R110). -/
def State.compare (s : State) (outcome : Bool) : State := s.advance.setCond outcome

/-- The arithmetic instructions write their result to `acc`, or raise `OverflowUnderflow` with a
sub-cause where there is none (R100, R126). -/
def State.arith (s : State) (result : Option Byte) (sub : SubCause) : State :=
  match result with
  | some v => s.advance.setAcc v
  | none => s.raise .overflowUnderflow sub

end Sys2Proof.Machine
end

