-- ==== Sys2Proof/Machine/Arithmetic.lean ====
section
/-! DEFINITION. The instructions of 42_arithmetic_logic.md: add, sub, neg, and. None writes `cond`. A
meaning takes the state before the step. -/

namespace Sys2Proof.Machine

/-- `add a`, opcode 7: faults on a sum above 255 (R101). -/
def execAdd (n : Byte) (s : State) : Result := withData n s fun d => s.arith (aluAdd s.acc d) .over

/-- `sub a`, opcode 8: faults on a difference below 0 (R102). -/
def execSub (n : Byte) (s : State) : Result := withData n s fun d => s.arith (aluSub s.acc d) .under

/-- `neg`, opcode 14: negates modulo 256, never faults; the operand is ignored (R103). -/
def execNeg (_n : Byte) (s : State) : Result := .next (s.advance.setAcc (aluNeg s.acc))

/-- `and a`, opcode 15: bitwise and (R104). -/
def execAnd (n : Byte) (s : State) : Result :=
  withData n s fun d => s.advance.setAcc (aluAnd s.acc d)

end Sys2Proof.Machine
end

