-- ==== Sys2Proof/Machine/CompareBranch.lean ====
section
/-! DEFINITION. The instructions of 43_compare_branch.md: jmp, cmpe, jc, cmpgr, cmple. A meaning takes
the state before the step. -/

namespace Sys2Proof.Machine

/-- `jmp a`, opcode 9: `pc <- CheckAddr(operand)`; the target is checked, not truncated (R111). -/
def execJmp (n : Byte) (s : State) : Result := withAddress n s fun a => s.advance.setPc a

/-- `cmpe a`, opcode 10: `cond <- (acc = d)` (R112). -/
def execCmpe (n : Byte) (s : State) : Result := withData n s fun d => s.compare (flagEqual s.acc d)

/-- `jc` with the parameter `JC_CHECKS_UNTAKEN_TARGET` as an argument: taken, it is a checked jump;
untaken, it falls through, after a check of the operand where the parameter asks for one (R113). -/
def execJcWith (checksUntaken : Bool) (n : Byte) (s : State) : Result :=
  if s.cond then withAddress n s fun a => s.advance.setPc a
  else if checksUntaken then withAddress n s fun _ => s.advance
  else .next s.advance

/-- `jc a`, opcode 11, at the parameter's value in Config (R113; log entry 8). -/
def execJc (n : Byte) (s : State) : Result := execJcWith Config.jcChecksUntakenTarget n s

/-- `cmpgr a`, opcode 12: `cond <- (acc > d)` (R114). -/
def execCmpgr (n : Byte) (s : State) : Result :=
  withData n s fun d => s.compare (flagGreater s.acc d)

/-- `cmple a`, opcode 13: `cond <- (acc < d)` (R115). -/
def execCmple (n : Byte) (s : State) : Result := withData n s fun d => s.compare (flagLess s.acc d)

end Sys2Proof.Machine
end

