-- ==== Sys2Proof/Machine/LoadStore.lean ====
section
/-! DEFINITION. The instructions of 41_load_store.md: ldc, lda, sta. A meaning takes the state before
the step. -/

namespace Sys2Proof.Machine

/-- `ldc n`, opcode 4: `acc <- operand` (R90). -/
def execLdc (n : Byte) (s : State) : Result := .next (s.advance.setAcc n)

/-- `lda a`, opcode 5: `acc <- MemRead(CheckAddr(operand), 8)` (R91). -/
def execLda (n : Byte) (s : State) : Result := withData n s fun d => s.advance.setAcc d

/-- `sta a`, opcode 6: `MemWrite(CheckAddr(operand), 8, acc)` (R92). -/
def execSta (n : Byte) (s : State) : Result := withAddress n s fun a => s.advance.writeData a s.acc

end Sys2Proof.Machine
end

