-- ==== Sys2Proof/Machine/SystemIo.lean ====
section
/-! DEFINITION. The instructions of 40_system_io.md: data, hlt, print, sleep, pout. Their operand is
ignored (30_encoding.md R52 (c)). A meaning takes the state before the step. -/

namespace Sys2Proof.Machine

/-- `data n`, opcode 0: no operation (R80). -/
def execData (_n : Byte) (s : State) : Result := .next s.advance

/-- `hlt`, opcode 1: `run <- HALTED`; `pc` is left one past the `hlt` (R81). -/
def execHlt (_n : Byte) (s : State) : Result := .next (s.advance.setRun .halted)

/-- `print`, opcode 2: `Emit(PRINT, acc)` (R82). -/
def execPrint (_n : Byte) (s : State) : Result := .next (s.advance.emit .print)

/-- `sleep n`, opcode 3: a defined no-op; no time is modelled (R83). -/
def execSleep (_n : Byte) (s : State) : Result := .next s.advance

/-- `pout`, opcode 18: `Emit(POUT, acc)` (R84). -/
def execPout (_n : Byte) (s : State) : Result := .next (s.advance.emit .pout)

end Sys2Proof.Machine
end

