-- ==== Sys2Proof/Machine/Dispatch.lean ====
section
/-! DEFINITION. The dispatch of 10_state.md R22: one arm per instruction. `s` is the state before the
step, its `pc` still the address the instruction was fetched from. -/

namespace Sys2Proof.Machine

def exec (i : Instr) (s : State) : Host.Outcome State Fault Refusal :=
  match i with
  | .data n => Sys2Proof.Machine.execData n s
  | .hlt n => Sys2Proof.Machine.execHlt n s
  | .print n => Sys2Proof.Machine.execPrint n s
  | .sleep n => Sys2Proof.Machine.execSleep n s
  | .ldc n => Sys2Proof.Machine.execLdc n s
  | .lda n => Sys2Proof.Machine.execLda n s
  | .sta n => Sys2Proof.Machine.execSta n s
  | .add n => Sys2Proof.Machine.execAdd n s
  | .sub n => Sys2Proof.Machine.execSub n s
  | .jmp n => Sys2Proof.Machine.execJmp n s
  | .cmpe n => Sys2Proof.Machine.execCmpe n s
  | .jc n => Sys2Proof.Machine.execJc n s
  | .cmpgr n => Sys2Proof.Machine.execCmpgr n s
  | .cmple n => Sys2Proof.Machine.execCmple n s
  | .neg n => Sys2Proof.Machine.execNeg n s
  | .and n => Sys2Proof.Machine.execAnd n s
  | .pout n => Sys2Proof.Machine.execPout n s

end Sys2Proof.Machine
end

