-- ==== Sys2Proof/Machine/Step.lean ====
section
/-! DEFINITION. The step (10_state.md R22, R23). -/

namespace Sys2Proof.Machine

/-- One step. A running machine fetches, decodes and executes; an opcode without a mnemonic raises
IllegalOpcode (60_exceptions.md R122). From IDLE, HALTED and FAULTED no step is taken (R14). -/
def step (s : State) : Host.Outcome State Fault Refusal :=
  match s.run with
  | .running =>
    match s.fetchInstr with
    | .ok i => exec i s
    | .error _ => .next (s.raise .illegalOpcode .none)
  | .idle => .fault .notStarted
  | .halted => .fault .alreadyHalted
  | .faulted r => .fault (.alreadyFaulted r)

/-- `s` with an instruction's bits stored where `step` fetches next, and running: it stands for the
load that puts a program into memory from outside (log entry 4). -/
def State.withFetchWord (s : State) (nbits w : Nat) : State := s.placeCell (tableCell nbits w)

end Sys2Proof.Machine
end

