-- ==== Sys2Proof/Machine/Loader.lean ====
section
/-! DEFINITION. The textual assembler and loader (30_encoding.md R58 to R70), the host's way to fill
memory before a run: the pseudocode of R59, one function per part. Text is a list of characters, read
once from left to right. -/

namespace Sys2Proof.Machine

/-- What a load-time diagnostic names beside the load address (R68, 60_exceptions.md R120). -/
inductive LoadToken where
  /-- the character found where a digit was expected; `none` at the end of the stream -/
  | unexpected (c : Option Char)
  /-- a mnemonic that matches no name -/
  | mnemonic (name : List Char)
  /-- a decimal literal out of its range -/
  | literal (n : Nat)
  /-- no token: an instruction was to be written at load address 128 -/
  | noRoom
deriving DecidableEq, Repr

/-- A load-time fault (R68): its kind, the load address and the malformed token. -/
structure LoadError where
  kind : FaultKind
  la : Nat
  token : LoadToken
deriving DecidableEq, Repr

/-- The loader's state (10_state.md R20) and the memory it fills. -/
structure Loader where
  /-- the unread characters -/
  chars : List Char
  /-- the load address, 0 to 128 -/
  la : Nat
  mem : Memory
deriving DecidableEq, Repr

/-! ### Character classes (R58; 92_eei_decisions.md D13; log entry 10) -/

/-- Space, tab, line feed, vertical tab, form feed, carriage return. -/
def isSpace (c : Char) : Bool := c.toNat = 32 || (decide (9 ≤ c.toNat) && decide (c.toNat ≤ 13))

/-- `0` to `9`. -/
def isDigit (c : Char) : Bool := decide (48 ≤ c.toNat) && decide (c.toNat ≤ 57)

/-- `A` to `Z`. -/
def isUpper (c : Char) : Bool := decide (65 ≤ c.toNat) && decide (c.toNat ≤ 90)

/-- `A` to `Z`, `a` to `z`. -/
def isAlpha (c : Char) : Bool := isUpper c || (decide (97 ≤ c.toNat) && decide (c.toNat ≤ 122))

/-- A letter in lower case; matching is case-insensitive (R64). -/
def toLower (c : Char) : Char := if isUpper c then Char.ofNat (c.toNat + 32) else c

/-! ### Scanning -/

/-- Drop white space (R60). -/
def skipSpace : List Char → List Char
  | [] => []
  | c :: cs => if isSpace c then skipSpace cs else c :: cs

/-- `DiscardLine`: drop everything up to and including the next line feed, or to the end (R62, R67). -/
def discardLine : List Char → List Char
  | [] => []
  | c :: cs => if c.toNat = 10 then cs else discardLine cs

/-- The longest run of letters, and what follows it (R63). -/
def takeAlpha : List Char → List Char × List Char
  | [] => ([], [])
  | c :: cs => if isAlpha c then (c :: (takeAlpha cs).1, (takeAlpha cs).2) else ([], c :: cs)

/-- The value of a run of digits read after the value `n`, unbounded, and what follows it (R59; log
entry 11). -/
def takeDigits : Nat → List Char → Nat × List Char
  | n, [] => (n, [])
  | n, c :: cs => if isDigit c then takeDigits (n * 10 + (c.toNat - 48)) cs else (n, c :: cs)

/-- `ParseDecimal`: at least one digit, or `InputMistake` naming the character found (R61, R65). -/
def parseDecimal (la : Nat) : List Char → Except LoadError (Nat × List Char)
  | [] => .error ⟨.inputMistake, la, .unexpected none⟩
  | c :: cs =>
    if isDigit c then .ok (takeDigits 0 (c :: cs))
    else .error ⟨.inputMistake, la, .unexpected (some c)⟩

/-! ### One decode step -/

/-- `Lookup`: a case-insensitive exact match against the names of the opcode map (R64). -/
def lookup (name : List Char) : Option Byte :=
  (findName (name.map toLower) 0 opcodeTable).map (BitVec.ofNat 8)

/-- The address directive, after its `@` (R61). -/
def loadDirective (l : Loader) (cs : List Char) : Except LoadError Loader :=
  match parseDecimal l.la cs with
  | .error e => .error e
  | .ok (n, rest) =>
    if Config.addrMax < n then .error ⟨.illegalAddress, l.la, .literal n⟩
    else .ok { l with chars := rest, la := n }

/-- The operand after a mnemonic: a decimal number after exactly one space, 0 without a space (R65). -/
def parseOperand (la : Nat) : List Char → Except LoadError (Nat × List Char)
  | [] => .ok (0, [])
  | c :: cs =>
    if c.toNat = 32 then
      match parseDecimal la cs with
      | .error e => .error e
      | .ok (n, rest) =>
        if Config.operandMax < n then .error ⟨.invalidOperand, la, .literal n⟩ else .ok (n, rest)
    else .ok (0, c :: cs)

/-- Write the cell and advance the load address; the check sits in the write (R66; log entry 12). -/
def placeInstr (l : Loader) (op : Byte) (n : Nat) (rest : List Char) : Except LoadError Loader :=
  if Config.addrMax < l.la then .error ⟨.illegalAddress, l.la, .noRoom⟩
  else .ok { chars := discardLine rest, la := l.la + 1,
             mem := l.mem.writeCell (BitVec.ofNat 7 l.la) (packCell op (BitVec.ofNat 8 n)) }

/-- An instruction item: mnemonic, operand, write, rest of the line (R63 to R67). -/
def loadInstr (l : Loader) (cs : List Char) : Except LoadError Loader :=
  match lookup (takeAlpha cs).1 with
  | none => .error ⟨.illegalOpcode, l.la, .mnemonic (takeAlpha cs).1⟩
  | some op =>
    match parseOperand l.la (takeAlpha cs).2 with
    | .error e => .error e
    | .ok (n, rest) => placeInstr l op n rest

/-- One item, the first character already known not to be white space (R61 to R63). -/
def loadItem (l : Loader) (c : Char) (cs : List Char) : Except LoadError Loader :=
  if c.toNat = 64 then loadDirective l cs
  else if c.toNat = 59 then .ok { l with chars := discardLine cs }
  else loadInstr l (c :: cs)

/-- Items until the end of the stream (R59), at most `fuel` of them. Every item consumes a character, so
the length of the stream is enough fuel (`Laws.loadLoop_fuel`). -/
def loadLoop : Nat → Loader → Except LoadError Loader
  | 0, l => .ok l
  | fuel + 1, l =>
    match skipSpace l.chars with
    | [] => .ok { l with chars := [] }
    | c :: cs =>
      match loadItem l c cs with
      | .error e => .error e
      | .ok l' => loadLoop fuel l'

/-- The loader at the start of a load: load address 0, memory as after power-on (R59, R150). -/
def Loader.fresh (text : List Char) : Loader := { chars := text, la := 0, mem := [] }

/-- `Load(stream)` (R59). -/
def load (text : List Char) : Except LoadError Loader :=
  loadLoop (text.length + 1) (Loader.fresh text)

end Sys2Proof.Machine
end

