-- ==== Sys2Proof/Machine/Output.lean ====
section
/-! DEFINITION. What the host sees of a run: the text of the output events (10_state.md R17), the exit
codes (60_exceptions.md R140), and the listing of dump mode (30_encoding.md R71). -/

namespace Sys2Proof.Machine

/-- A decimal digit as a character. -/
def digitChar (d : Nat) : Char := Char.ofNat (48 + d % 10)

/-- `%03d` of a byte: always exactly three digits (R17). -/
def threeDigits (v : Byte) : List Char :=
  [digitChar (v.toNat / 100), digitChar (v.toNat / 10), digitChar v.toNat]

/-- The text of an output event: `"%03d\n"` for `print`, `"out(%03d);\n"` for `pout` (R17). -/
def OutEvent.render (e : OutEvent) : List Char :=
  match e.channel with
  | .print => threeDigits e.value ++ ['\n']
  | .pout => ['o', 'u', 't', '('] ++ threeDigits e.value ++ [')', ';', '\n']

/-- The text of an output stream, in order. -/
def renderOut : List OutEvent → List Char
  | [] => []
  | e :: rest => e.render ++ renderOut rest

/-- The signal encoding of a channel, `PRINT` = 0, `POUT` = 1 (60_exceptions.md R139). -/
def Channel.code : Channel → BitVec 1
  | .print => 0
  | .pout => 1

/-- The exit code of a run: 0 at HALTED, 1 at FAULTED whatever the kind, none while it has not ended
(R140). -/
def RunState.exitCode : RunState → Option Nat
  | .halted => some 0
  | .faulted _ => some 1
  | .running => none
  | .idle => none

/-- A slot of the dump: its address and the two fields of its cell (R71). -/
structure DumpSlot where
  addr : Addr
  opcode : Byte
  operand : Byte
deriving DecidableEq, Repr

/-- The slot of one address, where the cell is not 0x0000 (R71; log entry 16). -/
def dumpSlot (m : Memory) (a : Addr) : Option DumpSlot :=
  if m.readCell a = 0 then none
  else some ⟨a, opcodeOf (m.readCell a), operandOf (m.readCell a)⟩

/-- Every address, ascending. -/
def allAddrs : List Addr := (List.range Config.memCells).map (BitVec.ofNat 7)

/-- Dump mode: the nonzero slots in ascending address order (R71). -/
def dump (m : Memory) : List DumpSlot := allAddrs.filterMap (dumpSlot m)

end Sys2Proof.Machine
end

