-- ==== Sys2Proof/Machine/Interface.lean ====
section
/-! DEFINITION. What the outside can do to the machine: the event inputs of the block (60_exceptions.md
R138, R139) and the boot sequence (70_reset_and_hazards.md R153). None of it can happen during a run. -/

namespace Sys2Proof.Machine

/-- The inputs of the block (R139). -/
inductive HostEvent where
  | powerOn
  | load (a : Addr) (w : CellWord)
  | runReset
deriving DecidableEq, Repr

/-- One input applied to the machine. None acts during a run (10_state.md R21; R128, R138): power-on (R150)
and run-reset (R151) are accepted from IDLE, HALTED and FAULTED, a load only while IDLE (R139). An input
the machine does not accept is refused by name (log entry 14). -/
def hostStep (e : HostEvent) (s : State) : Host.Outcome State Fault Refusal :=
  match e, s.run with
  | .powerOn, .idle => .next State.powerOn
  | .powerOn, .halted => .next State.powerOn
  | .powerOn, .faulted _ => .next State.powerOn
  | .powerOn, .running => .refused .powerOnWhileRunning
  | .load a w, .idle => .next (s.setMem (s.mem.writeCell a w))
  | .load _ _, .running => .refused .loadWhileNotIdle
  | .load _ _, .halted => .refused .loadWhileNotIdle
  | .load _ _, .faulted _ => .refused .loadWhileNotIdle
  | .runReset, .idle => .next s.runReset
  | .runReset, .halted => .next s.runReset
  | .runReset, .faulted _ => .next s.runReset
  | .runReset, .running => .refused .runResetWhileRunning

/-- The host's one choice after a load (R71, R138). -/
inductive BootMode where
  | dump
  | execute
deriving DecidableEq, Repr

/-- Where the boot sequence ends. -/
inductive BootResult where
  /-- a load-time fault: the machine stays IDLE and is never started (R68) -/
  | loadFailed (e : LoadError)
  /-- dump mode: the listing, and no step taken (R71) -/
  | dumped (slots : List DumpSlot)
  /-- execute mode: the machine after run-reset, ready for its first step -/
  | started (s : State)
deriving DecidableEq, Repr

/-- The boot sequence (R153): power-on, load, mode choice, run-reset. -/
def boot (text : List Char) (mode : BootMode) : BootResult :=
  match load text with
  | .error e => .loadFailed e
  | .ok l =>
    match mode with
    | .dump => .dumped (dump l.mem)
    | .execute => .started (State.powerOn.setMem l.mem).runReset

/-- The exit code where the sequence itself ends the process: 1 for a load-time fault, 0 for a dump
(60_exceptions.md R140). A started run has the exit code of its run state. -/
def BootResult.exitCode : BootResult → Option Nat
  | .loadFailed _ => some 1
  | .dumped _ => some 0
  | .started s => s.run.exitCode

end Sys2Proof.Machine
end

