-- ==== Sys2Proof/Safety.lean ====
section
/-! DEFINITION. What counts as a good state and a good run, in the terms the statements use. -/

namespace Sys2Proof.Machine

/-- A fault record the engine can make (60_exceptions.md R120): one of its three kinds, with a sub-cause
exactly for `overflowUnderflow` (R126). The dormant kinds and the loader's kinds are not among them. -/
def FaultRecord.engineMade (r : FaultRecord) : Bool :=
  match r.kind, r.sub with
  | .illegalOpcode, .none => true
  | .illegalAddress, .none => true
  | .overflowUnderflow, .over => true
  | .overflowUnderflow, .under => true
  | _, _ => false

/-- While the machine is faulted, its record is one the engine makes and `pc` is one past the address
it names (R130). -/
def State.faultOk (s : State) : Prop :=
  ∀ r, s.run = .faulted r → r.engineMade = true ∧ s.pc = r.faultPc + 1

/-- The invariant of the machine: memory is in its canonical form, and a fault record is a legal one. -/
def State.Inv (s : State) : Prop := s.mem.wf = true ∧ s.faultOk

/-- A cell holds an instruction: its opcode has a mnemonic (10_state.md R16, 30_encoding.md R55). -/
def namedCell (w : CellWord) : Bool := (RawInstr.mk (opcodeOf w).toNat (operandOf w).toNat).wellFormed

/-- Every cell holds an instruction, as after a load (30_encoding.md R70). -/
def State.AllNamed (s : State) : Prop := ∀ a : Addr, namedCell (s.mem.readCell a) = true

/-- The run has ended (10_state.md R24). -/
def State.ended (s : State) : Prop := s.run = .halted ∨ ∃ r, s.run = .faulted r

/-- The success condition of a completed run (60_exceptions.md R131). -/
def State.succeeded (s : State) : Prop := s.run = .halted

/-- A meaning answered a state that records a fault of this kind and sub-cause. -/
def faultsWith (o : Result) (k : FaultKind) (sub : SubCause) (p : State → Prop) : Prop :=
  ∃ t r, o = .next t ∧ t.run = .faulted r ∧ r.kind = k ∧ r.sub = sub ∧ p t

/-- Nothing a program can compute with has changed: `acc`, `cond`, memory, output. -/
def sameData (s t : State) : Prop :=
  t.acc = s.acc ∧ t.cond = s.cond ∧ t.mem = s.mem ∧ t.out = s.out

/-- The instruction would use an illegal address in this state: an operand above 127 used as an address,
for `jc` only when the jump is taken (20_memory.md R31). -/
def badAddress (i : Instr) (s : State) : Prop :=
  i.wellFormed = false ∧ ((∃ n, i = .jc n) → s.cond = true)

/-- The instruction would leave 0..255 in this state: an `add` whose sum is above 255 or a `sub` whose
difference is below 0, with the sub-cause it records (60_exceptions.md R126). -/
def badRange (i : Instr) (s : State) (sub : SubCause) : Prop :=
  ∃ n a, checkAddr n = some a ∧
    ((i = .add n ∧ sub = .over ∧ 255 < s.acc.toNat + (operandOf (s.mem.readCell a)).toNat) ∨
     (i = .sub n ∧ sub = .under ∧ s.acc.toNat < (operandOf (s.mem.readCell a)).toNat))

/-- The source line of an instruction (30_encoding.md R58): its mnemonic, one space, its operand in three
digits, a line feed. -/
def sourceLine (i : Instr) : List Char := i.mnemonic ++ ' ' :: threeDigits i.operand ++ ['\n']

/-- The value of a string of digits, first digit highest (30_encoding.md R59). -/
def digitsValue (ds : List Char) : Nat := ds.foldl (fun n c => n * 10 + (c.toNat - 48)) 0

end Sys2Proof.Machine
end

