-- ==== Sys2Proof/Certificates/Slice0/Obligations.lean ====
section
/-! DEFINITION. The statements for the provers. Each docstring names the rules of spec/ it formalises;
where a clause rests on a decision the spec marks as its own, the docstring says so and names the log
entry. `exec` takes the state before the step, so `s.pc` is the address the instruction was fetched
from. A record update `{ s with … }` says that every field it does not name is unchanged. -/

open Sys2Proof Sys2Proof.Machine

/-! ### One instruction each: its encoding, where it completes and with what, where it faults -/

/-- R80. `data n` is opcode 0 and does nothing but advance `pc`; a cell written by a store is a `data`
cell. -/
def Obligations.DataIsANoOp : Prop :=
  ∀ (n : Byte) (s : State),
    decodeCell (packCell 0x00 n) = .ok (.data n) ∧
    exec (.data n) s = .next { s with pc := s.pc + 1 } ∧
    ∀ (a : Addr) (v : Byte), s.mem.wf = true →
      decodeCell ((s.mem.writeData a v).readCell a) = .ok (.data v)

/-- R81. `hlt` is opcode 1: `run` becomes HALTED and `pc` is one past it; HALTED is terminal, its exit
code is 0, and no other instruction reaches it. -/
def Obligations.HltIsTheOnlyWayToHalt : Prop :=
  (∀ (n : Byte) (s : State),
    decodeCell (packCell 0x01 n) = .ok (.hlt n) ∧
    exec (.hlt n) s = .next { s with pc := s.pc + 1, run := .halted }) ∧
  (∀ s t : State, s.run = .halted → step s ≠ .next t) ∧
  RunState.exitCode .halted = some 0 ∧
  ∀ s t : State, step s = .next t → t.run = .halted → ∃ n, decodeCell s.fetchCell = .ok (.hlt n)

/-- 40_system_io.md, `print`: appends `(PRINT, acc)` and changes nothing else but `pc`. That the output
is always accepted is decision D19 (log entry 9). -/
def Obligations.PrintAppendsPlainEvent : Prop :=
  ∀ (n : Byte) (s : State),
    decodeCell (packCell 0x02 n) = .ok (.print n) ∧
    exec (.print n) s = .next { s with pc := s.pc + 1, out := s.out ++ [⟨.print, s.acc⟩] }

/-- 40_system_io.md, `sleep`: a no-op for every operand. That no time passes is decision D17 (log entry
18). -/
def Obligations.SleepIsANoOp : Prop :=
  ∀ (n : Byte) (s : State),
    decodeCell (packCell 0x03 n) = .ok (.sleep n) ∧
    exec (.sleep n) s = .next { s with pc := s.pc + 1 }

/-- 40_system_io.md, `pout`: opcode 18, appends `(POUT, acc)`. That the output is always accepted is
decision D19 (log entry 9). -/
def Obligations.PoutAppendsFramedEvent : Prop :=
  ∀ (n : Byte) (s : State),
    decodeCell (packCell 0x12 n) = .ok (.pout n) ∧
    exec (.pout n) s = .next { s with pc := s.pc + 1, out := s.out ++ [⟨.pout, s.acc⟩] }

/-- R90. `ldc n` loads the literal, for every operand. -/
def Obligations.LdcLoadsLiteral : Prop :=
  ∀ (n : Byte) (s : State),
    decodeCell (packCell 0x04 n) = .ok (.ldc n) ∧
    exec (.ldc n) s = .next { s with pc := s.pc + 1, acc := n }

/-- R91. `lda a` loads the operand field of cell `a`; an operand above 127 raises IllegalAddress and
`acc` is not written. -/
def Obligations.LdaLoadsOperandField : Prop :=
  ∀ (n : Byte) (s : State),
    decodeCell (packCell 0x05 n) = .ok (.lda n) ∧
    (∀ a, checkAddr n = some a →
      exec (.lda n) s = .next { s with pc := s.pc + 1, acc := operandOf (s.mem.readCell a) }) ∧
    (127 < n.toNat → faultsWith (exec (.lda n) s) .illegalAddress .none (sameData s))

/-- R92. `sta a` replaces cell `a` by `(0, acc)` and leaves every other byte of memory and everything
else but `pc`; `lda a` then reads `acc` back; an operand above 127 raises IllegalAddress and memory is
not written. The canonical form of memory is a premise of the reads only. -/
def Obligations.StaStoresDataWord : Prop :=
  ∀ (n : Byte) (s : State),
    decodeCell (packCell 0x06 n) = .ok (.sta n) ∧
    (∀ a, checkAddr n = some a → ∃ m : Memory,
      exec (.sta n) s = .next { s with pc := s.pc + 1, mem := m } ∧
      (s.mem.wf = true → m.readCell a = packCell 0 s.acc) ∧
      (∀ k, k ≠ opcodeKey a → k ≠ operandKey a → m.readByte k = s.mem.readByte k) ∧
      (s.mem.wf = true → ∀ t, exec (.sta n) s = .next t →
        exec (.lda n) t = .next { t with pc := t.pc + 1, acc := s.acc })) ∧
    (127 < n.toNat → faultsWith (exec (.sta n) s) .illegalAddress .none (sameData s))

/-- 42_arithmetic_logic.md, `add`: the integer sum where it fits a byte; above 255 the fault
OverflowUnderflow(over); an operand above 127 raises IllegalAddress first, whatever `acc` holds. What a
fault records and leaves is decisions D6 and D7 (log entry 6), the order is D20. -/
def Obligations.AddFaultsInsteadOfWrapping : Prop :=
  ∀ (n : Byte) (s : State),
    decodeCell (packCell 0x07 n) = .ok (.add n) ∧
    (∀ a, checkAddr n = some a →
      (∀ v : Byte, v.toNat = s.acc.toNat + (operandOf (s.mem.readCell a)).toNat →
        exec (.add n) s = .next { s with pc := s.pc + 1, acc := v }) ∧
      (255 < s.acc.toNat + (operandOf (s.mem.readCell a)).toNat →
        exec (.add n) s =
          .next { s with pc := s.pc + 1, run := .faulted ⟨.overflowUnderflow, .over, s.pc⟩ })) ∧
    (127 < n.toNat → exec (.add n) s =
      .next { s with pc := s.pc + 1, run := .faulted ⟨.illegalAddress, .none, s.pc⟩ })

/-- 42_arithmetic_logic.md, `sub`: the integer difference `acc - d` where it is not negative; below 0 the
fault OverflowUnderflow(under); an operand above 127 raises IllegalAddress first. What a fault records
and leaves is decisions D6 and D7 (log entry 6), the order is D20. -/
def Obligations.SubFaultsInsteadOfWrapping : Prop :=
  ∀ (n : Byte) (s : State),
    decodeCell (packCell 0x08 n) = .ok (.sub n) ∧
    (∀ a, checkAddr n = some a →
      (∀ v : Byte, v.toNat + (operandOf (s.mem.readCell a)).toNat = s.acc.toNat →
        exec (.sub n) s = .next { s with pc := s.pc + 1, acc := v }) ∧
      (s.acc.toNat < (operandOf (s.mem.readCell a)).toNat →
        exec (.sub n) s =
          .next { s with pc := s.pc + 1, run := .faulted ⟨.overflowUnderflow, .under, s.pc⟩ })) ∧
    (127 < n.toNat → exec (.sub n) s =
      .next { s with pc := s.pc + 1, run := .faulted ⟨.illegalAddress, .none, s.pc⟩ })

/-- 42_arithmetic_logic.md, `neg`: never faults; the new accumulator is the byte that the old one adds up
with to a multiple of 256, and two `neg` in a row restore it. For a non-zero accumulator this is the
spec's own choice D3 (log entry 7). -/
def Obligations.NegWrapsModulo256 : Prop :=
  ∀ (n : Byte) (s : State),
    decodeCell (packCell 0x0E n) = .ok (.neg n) ∧
    ∃ v : Byte, (s.acc.toNat + v.toNat) % 256 = 0 ∧
      exec (.neg n) s = .next { s with pc := s.pc + 1, acc := v } ∧
      exec (.neg n) { s with acc := v } = .next { s with pc := s.pc + 1 }

/-- R104. `and a` is the bitwise and with the operand field of cell `a`, bit by bit; an operand above 127
raises IllegalAddress and `acc` is not written. -/
def Obligations.AndIsBitwise : Prop :=
  ∀ (n : Byte) (s : State),
    decodeCell (packCell 0x0F n) = .ok (.and n) ∧
    (∀ a, checkAddr n = some a → ∃ v : Byte,
      exec (.and n) s = .next { s with pc := s.pc + 1, acc := v } ∧
      ∀ j < 8, v.getLsbD j = (s.acc.getLsbD j && (operandOf (s.mem.readCell a)).getLsbD j)) ∧
    (127 < n.toNat → faultsWith (exec (.and n) s) .illegalAddress .none (sameData s))

/-- R111. `jmp a` goes to the checked target and saves nothing; an operand above 127 raises
IllegalAddress, it is not truncated. -/
def Obligations.JmpGoesToCheckedTarget : Prop :=
  ∀ (n : Byte) (s : State),
    decodeCell (packCell 0x09 n) = .ok (.jmp n) ∧
    (∀ a, checkAddr n = some a → exec (.jmp n) s = .next { s with pc := a }) ∧
    (127 < n.toNat → faultsWith (exec (.jmp n) s) .illegalAddress .none (sameData s))

/-- R112. `cmpe a` overwrites `cond` with `acc = d`; an operand above 127 raises IllegalAddress and `cond`
is not written. -/
def Obligations.CmpeWritesEquality : Prop :=
  ∀ (n : Byte) (s : State),
    decodeCell (packCell 0x0A n) = .ok (.cmpe n) ∧
    (∀ a, checkAddr n = some a →
      exec (.cmpe n) s =
        .next { s with pc := s.pc + 1, cond := decide (s.acc = operandOf (s.mem.readCell a)) }) ∧
    (127 < n.toNat → faultsWith (exec (.cmpe n) s) .illegalAddress .none (sameData s))

/-- 43_compare_branch.md, `jc`: with `cond` true it is a checked jump, with `cond` false it falls through;
`cond` is left as it was. That an untaken `jc` does not check its operand is decision D4, the default of
the OPEN parameter (log entry 8); what a fault records is D6 (log entry 6). -/
def Obligations.JcJumpsOnTrueOnly : Prop :=
  ∀ (n : Byte) (s : State),
    decodeCell (packCell 0x0B n) = .ok (.jc n) ∧
    (s.cond = false → exec (.jc n) s = .next { s with pc := s.pc + 1 }) ∧
    (s.cond = true →
      (∀ a, checkAddr n = some a → exec (.jc n) s = .next { s with pc := a }) ∧
      (127 < n.toNat → exec (.jc n) s =
        .next { s with pc := s.pc + 1, run := .faulted ⟨.illegalAddress, .none, s.pc⟩ }))

/-- R114. `cmpgr a` overwrites `cond` with the unsigned, strict `acc > d`; an operand above 127 raises
IllegalAddress and `cond` is not written. -/
def Obligations.CmpgrWritesUnsignedGreater : Prop :=
  ∀ (n : Byte) (s : State),
    decodeCell (packCell 0x0C n) = .ok (.cmpgr n) ∧
    (∀ a, checkAddr n = some a →
      exec (.cmpgr n) s = .next
        { s with pc := s.pc + 1, cond := decide ((operandOf (s.mem.readCell a)).toNat < s.acc.toNat) }) ∧
    (127 < n.toNat → faultsWith (exec (.cmpgr n) s) .illegalAddress .none (sameData s))

/-- R115. `cmple a` overwrites `cond` with the unsigned, strict `acc < d`; an operand above 127 raises
IllegalAddress and `cond` is not written. -/
def Obligations.CmpleWritesUnsignedLess : Prop :=
  ∀ (n : Byte) (s : State),
    decodeCell (packCell 0x0D n) = .ok (.cmple n) ∧
    (∀ a, checkAddr n = some a →
      exec (.cmple n) s = .next
        { s with pc := s.pc + 1, cond := decide (s.acc.toNat < (operandOf (s.mem.readCell a)).toNat) }) ∧
    (127 < n.toNat → faultsWith (exec (.cmple n) s) .illegalAddress .none (sameData s))

/-! ### The encoding -/

/-- 30_encoding.md sections 1 to 3: decoding the bytes of an instruction gives it back, whatever follows;
a cell decodes to an instruction exactly when it is that instruction's cell; and every instruction's pair
of numbers is well formed. The order of the two bytes is decision D11 (log
entry 1), the packing of a cell D1 and D2 (log entry 2). -/
def Obligations.DecodeAndEncodeAgree : Prop :=
  (∀ (i : Instr) (rest : List Byte), decode (encode i ++ rest) = .ok (i, rest)) ∧
  (∀ (w : CellWord) (i : Instr), decodeCell w = .ok i ↔ encodeCell i = w) ∧
  ∀ i : Instr, i.raw.wellFormed = true

/-- 30_encoding.md sections 3 and 4: a cell decodes exactly when its opcode names a slot of the opcode map,
that is 0 to 15 or 18, and is rejected by its opcode otherwise, whatever the operand. The width of the
opcode field is decision D2 (log entry 2). -/
def Obligations.DecodeRejectsExactlyUnnamedOpcodes : Prop :=
  ∀ w : CellWord,
    ((∃ i, decodeCell w = .ok i) ↔ (opcodeOf w).toNat ≤ 15 ∨ (opcodeOf w).toNat = 18) ∧
    ((∃ i, decodeCell w = .ok i) ↔ ∃ nm b, slotOf (opcodeOf w) = some (.named nm b)) ∧
    (∀ e, decodeCell w = .error e → e = .illegalOpcode (opcodeOf w))

/-- 95_test_vectors.md section 3.1: sample words, written out from the encoding, decode to the instruction
they stand for. That a cell packs into a 16-bit number with the opcode in bits 15 to 8 is decisions D1 and D2,
the spec's own choice (log entry 2). -/
def Obligations.SampleWordsDecode : Prop :=
  decodeCell 0b0000000000101010 = .ok (.data 42) ∧
  decodeCell 0b0000010000001010 = .ok (.ldc 10) ∧
  decodeCell 0b0000011100011110 = .ok (.add 30) ∧
  decodeCell 0b0000101100001010 = .ok (.jc 10) ∧
  decodeCell 0b0001001000000000 = .ok (.pout 0) ∧
  decodeCell 0b0001000000000000 = .error (.illegalOpcode 16)

/-- 30_encoding.md section 2: the operand of `data`, `hlt`, `print`, `sleep`, `neg` and `pout` has no
effect on execution. -/
def Obligations.IgnoredOperandHasNoEffect : Prop :=
  ∀ (n n' : Byte) (s : State),
    exec (.data n) s = exec (.data n') s ∧ exec (.hlt n) s = exec (.hlt n') s ∧
    exec (.print n) s = exec (.print n') s ∧ exec (.sleep n) s = exec (.sleep n') s ∧
    exec (.neg n) s = exec (.neg n') s ∧ exec (.pout n) s = exec (.pout n') s

/-! ### The step -/

/-- 10_state.md section 6: while running, a step executes the instruction that the bytes at `pc` decode
to, and nothing around it: the increment of `pc` is part of each meaning. -/
def Obligations.StepRunsTheDecodedInstruction : Prop :=
  ∀ (s : State) (i : Instr) (rest : List Byte), s.run = .running →
    decode s.fetchBytes = .ok (i, rest) → step s = exec i s

/-- 60_exceptions.md section 1: a fetched opcode of 16, 17 or 19 to 255 raises IllegalOpcode, code 2, after
the increment of `pc` and before anything else, recording the address it was fetched from; at load time an
unknown mnemonic raises it. The code is decision D5, what is recorded is D6 (log entry 6). -/
def Obligations.UnnamedOpcodeRaisesIllegalOpcode : Prop :=
  FaultKind.code .illegalOpcode = 2 ∧
  (∀ s : State, s.run = .running →
    (opcodeOf s.fetchCell = 16 ∨ opcodeOf s.fetchCell = 17 ∨ 18 < (opcodeOf s.fetchCell).toNat) →
    step s = .next { s with pc := s.pc + 1, run := .faulted ⟨.illegalOpcode, .none, s.pc⟩ }) ∧
  ∀ (l : Loader) (cs : List Char), lookup (takeAlpha cs).1 = none →
    loadInstr l cs = .error ⟨.illegalOpcode, l.la, .mnemonic (takeAlpha cs).1⟩

/-- 70_reset_and_hazards.md section 4: a running machine always has a step, to a state that is RUNNING,
HALTED or FAULTED. -/
def Obligations.RunningMachineAlwaysSteps : Prop :=
  ∀ s : State, s.run = .running →
    ∃ t, step s = .next t ∧ (t.run = .running ∨ t.ended)

/-- 10_state.md section 3: from IDLE, HALTED and FAULTED no step is taken, and run-reset puts a faulted
machine back to RUNNING. The names of the stops are the model's own (log entry 5), run-reset from FAULTED
is decision D15 (log entry 14). -/
def Obligations.StoppedMachineTakesNoStep : Prop :=
  ∀ s : State,
    (s.run = .idle → step s = .fault .notStarted) ∧
    (s.run = .halted → step s = .fault .alreadyHalted) ∧
    (∀ r, s.run = .faulted r →
      step s = .fault (.alreadyFaulted r) ∧ hostStep .runReset s = .next s.runReset ∧
      s.runReset.run = .running)

/-- The word stored for a fetch is the word the next step runs (log entry 4). -/
def Obligations.PlacedWordRunsNext : Prop :=
  ∀ (s : State) (w : CellWord) (i : Instr), s.mem.wf = true → decodeCell w = .ok i →
    step (s.withFetchWord 16 w.toNat) = exec i (s.withFetchWord 16 w.toNat)

/-! ### Faults -/

/-- 60_exceptions.md section 4: a step that faults changes nothing but `pc`, which it increments, and
`run`, whose record names the address the instruction was fetched from and a kind the engine has. What is
recorded and left is decisions D6 and D7 (log entry 6). -/
def Obligations.FaultingStepHasNoOtherEffect : Prop :=
  ∀ (s t : State) (r : FaultRecord), step s = .next t → t.run = .faulted r →
    t = { s with pc := s.pc + 1, run := .faulted r } ∧ r.faultPc = s.pc ∧ r.engineMade = true

/-- 60_exceptions.md sections 1 and 3: a decoded instruction raises IllegalAddress exactly when it uses an
operand above 127 as an address, OverflowUnderflow exactly when its sum or difference leaves 0..255 at a
legal address, and nothing else. That an untaken `jc` does not count is decision D4 (log entry 8). -/
def Obligations.InstructionFaultsExactlyWhen : Prop :=
  ∀ (i : Instr) (s t : State), s.run = .running → exec i s = .next t →
    ((∃ r, t.run = .faulted r ∧ r.kind = .illegalAddress) ↔ badAddress i s) ∧
    (∀ sub, (∃ r, t.run = .faulted r ∧ r.kind = .overflowUnderflow ∧ r.sub = sub) ↔ badRange i s sub) ∧
    (∀ r, t.run = .faulted r → r.kind = .illegalAddress ∨ r.kind = .overflowUnderflow)

/-- 60_exceptions.md section 1: codes 4 and 7 belong to the two dormant kinds, which keep the codes of the
later kinds at 5, 6 and 7; no step and no load raises either. The numbers are decision D5 (log entries 6
and 17). -/
def Obligations.DormantKindsAreNeverRaised : Prop :=
  FaultKind.code .invalidOpcodeOrAddressInput = 4 ∧ FaultKind.code .invalidOperand = 5 ∧
  FaultKind.code .overflowUnderflow = 6 ∧ FaultKind.code .cassetteError = 7 ∧
  (∀ (s t : State) (r : FaultRecord), step s = .next t → t.run = .faulted r →
    r.kind ≠ .invalidOpcodeOrAddressInput ∧ r.kind ≠ .cassetteError) ∧
  ∀ (text : List Char) (e : LoadError), load text = .error e →
    e.kind ≠ .invalidOpcodeOrAddressInput ∧ e.kind ≠ .cassetteError

/-- 92_eei_decisions.md D4 (log entry 8): for an operand of at most 127 the OPEN parameter makes no difference
to `jc`; for one above 127 it decides only the untaken case. What that fault records and leaves is decisions
D6 and D7 (log entry 6). -/
def Obligations.JcParameterMattersOnlyUntakenAbove127 : Prop :=
  ∀ (b : Bool) (n : Byte) (s : State),
    (n.toNat ≤ 127 ∨ s.cond = true → execJcWith b n s = execJc n s) ∧
    (127 < n.toNat → s.cond = false →
      execJcWith true n s =
        .next { s with pc := s.pc + 1, run := .faulted ⟨.illegalAddress, .none, s.pc⟩ } ∧
      execJcWith false n s = .next { s with pc := s.pc + 1 })

/-! ### Frames over all instructions -/

/-- 10_state.md section 2: only `ldc`, `lda`, `add`, `sub`, `neg` and `and` write `acc`. -/
def Obligations.AccWrittenOnlyByItsSix : Prop :=
  ∀ (i : Instr) (s t : State), exec i s = .next t → t.acc ≠ s.acc →
    ∃ n, i = .ldc n ∨ i = .lda n ∨ i = .add n ∨ i = .sub n ∨ i = .neg n ∨ i = .and n

/-- 10_state.md section 2: only the three comparisons write `cond`, and only `jc` reads it. A comparison at a
legal address goes to one and the same state whatever `cond` was. Every other instruction but `jc`, and a
comparison that faults on its address, does what it does whatever `cond` is and carries it over. -/
def Obligations.CondWrittenByComparisonsReadByJc : Prop :=
  (∀ (i : Instr) (s t : State), exec i s = .next t → t.cond ≠ s.cond →
    ∃ n, i = .cmpe n ∨ i = .cmpgr n ∨ i = .cmple n) ∧
  (∀ (i : Instr) (n : Byte) (s t : State) (b : Bool), i = .cmpe n ∨ i = .cmpgr n ∨ i = .cmple n →
    exec i s = .next t →
    exec i { s with cond := b } = .next (if n.toNat ≤ 127 then t else { t with cond := b })) ∧
  ∀ (i : Instr) (s t : State) (b : Bool),
    (∀ n, i ≠ .jc n ∧ i ≠ .cmpe n ∧ i ≠ .cmpgr n ∧ i ≠ .cmple n) → exec i s = .next t →
    exec i { s with cond := b } = .next { t with cond := b }

/-- 10_state.md section 5: `print` appends the one event `(PRINT, acc)` to `out`, `pout` the one event
`(POUT, acc)`, and every other instruction leaves `out` as it was; no instruction reads it: what was written
before makes no difference to a step. That the stream is one of events and takes each at once is decisions D9
and D19 (log entry 9). -/
def Obligations.OutputIsAppendOnlyAndWriteOnly : Prop :=
  (∀ (n : Byte) (s t : State), exec (.print n) s = .next t → t.out = s.out ++ [⟨.print, s.acc⟩]) ∧
  (∀ (n : Byte) (s t : State), exec (.pout n) s = .next t → t.out = s.out ++ [⟨.pout, s.acc⟩]) ∧
  (∀ (i : Instr) (s t : State), (∀ n, i ≠ .print n ∧ i ≠ .pout n) → exec i s = .next t →
    t.out = s.out) ∧
  ∀ (s t : State) (earlier : List OutEvent), step s = .next t →
    step { s with out := earlier ++ s.out } = .next { t with out := earlier ++ t.out }

/-- 10_state.md section 2: an instruction other than `jmp` and `jc`, completed or faulting, leaves `pc` one past the
cell it was fetched from, 0 after 127. -/
def Obligations.PcAdvancesByOneCell : Prop :=
  ∀ (i : Instr) (s t : State), exec i s = .next t → (∀ n, i ≠ .jmp n) → (∀ n, i ≠ .jc n) →
    t.pc.toNat = (s.pc.toNat + 1) % 128

/-- R33. A data write makes the cell `(0, v)`, leaves every other byte, and `sta` is the only instruction
that writes memory. -/
def Obligations.StoreReplacesOneCellAndOnlyStaStores : Prop :=
  (∀ (m : Memory) (a : Addr) (v : Byte),
    (m.wf = true → (m.writeData a v).readCell a = packCell 0 v) ∧
    ∀ k, k ≠ opcodeKey a → k ≠ operandKey a → (m.writeData a v).readByte k = m.readByte k) ∧
  (∀ (n : Byte) (s t : State), exec (.sta n) s = .next t → 127 < n.toNat → t.mem = s.mem) ∧
  ∀ (i : Instr) (s t : State), exec i s = .next t → (∀ n, i ≠ .sta n) →
    ∀ k, t.mem.readByte k = s.mem.readByte k

/-- 20_memory.md section 3: data reads see operand fields only. Two memories that agree on every operand
field give an instruction the same registers, run state and output. -/
def Obligations.OpcodeFieldsAreNotReadAsData : Prop :=
  ∀ (i : Instr) (s t : State) (m : Memory),
    (∀ a, operandOf (m.readCell a) = operandOf (s.mem.readCell a)) → exec i s = .next t →
    ∃ m', exec i { s with mem := m } = .next { t with mem := m' }

/-! ### Memory -/

/-- R44. For every address and byte, a write and then a data read returns the byte and a fetch returns
`(0, v)`; for every value above 127 used as an address the operation raises IllegalAddress, in each of
the instructions that use one, `jc` when it is taken. The canonical form of memory is a premise, kept by
every step (`InvariantIsKeptByEveryStep`). -/
def Obligations.StoreThenLoadRoundTrip : Prop :=
  (∀ (s : State) (a : Addr) (v : Byte), s.mem.wf = true →
    (s.writeData a v).readData a = v ∧ ((s.writeData a v).setPc a).fetchCell = packCell 0 v) ∧
  ∀ (i : Instr) (n : Byte) (s : State), i.addressOperand = some n → 127 < n.toNat →
    ((∃ n, i = .jc n) → s.cond = true) →
    faultsWith (exec i s) .illegalAddress .none fun _ => True

/-- 20_memory.md section 2: the address decoder answers the address itself for 0 to 127 and nothing above. -/
def Obligations.CheckAddrAcceptsExactly0To127 : Prop :=
  ∀ n : Byte,
    (∀ a, checkAddr n = some a ↔ n.toNat ≤ 127 ∧ a.toNat = n.toNat) ∧
    (checkAddr n = none ↔ n.getLsbD 7 = true)

/-- Equal memories are equal data: two canonical memories that read the same at every key are the same list
(the model's form of memory, log entry 1). -/
def Obligations.CanonicalMemoriesAreExtensional : Prop :=
  ∀ m m' : Memory, m.wf = true → m'.wf = true → (∀ a, m.readCell a = m'.readCell a) → m = m'

/-- 20_memory.md section 5: a step can turn a cell into a data word and do nothing else to it, so no program
creates an executable cell. -/
def Obligations.NoProgramCreatesAnExecutableCell : Prop :=
  ∀ (s t : State) (a : Addr), s.mem.wf = true → step s = .next t →
    t.mem.readCell a = s.mem.readCell a ∨ t.mem.readCell a = packCell 0 s.acc

/-- 20_memory.md section 5: a store into the next cell is seen by the very next fetch, which finds a no-op. -/
def Obligations.StoreIsSeenByTheNextFetch : Prop :=
  ∀ (s : State) (n : Byte), s.run = .running → s.mem.wf = true →
    decodeCell s.fetchCell = .ok (.sta n) → checkAddr n = some (s.pc + 1) →
    ∃ t, step s = .next t ∧ decodeCell t.fetchCell = .ok (.data s.acc) ∧
      step t = .next { t with pc := t.pc + 1 }

/-! ### Invariants -/

/-- From every state that meets the invariant (memory in canonical form; a fault record the engine can
make, with `pc` one past its address), every step leads to a state that meets it. -/
def Obligations.InvariantIsKeptByEveryStep : Prop :=
  ∀ s t : State, s.Inv → step s = .next t → t.Inv

/-- The state after reset, and the state after power-on, meet the invariant. -/
def Obligations.ResetMeetsTheInvariant : Prop :=
  State.reset.Inv ∧ State.powerOn.Inv ∧ State.reset.AllNamed ∧ State.powerOn.AllNamed

/-- 10_state.md section 4: where every cell holds an instruction, a step keeps it so and does not raise
IllegalOpcode. -/
def Obligations.NamedCellsAreKeptByEveryStep : Prop :=
  ∀ s t : State, s.mem.wf = true → s.AllNamed → step s = .next t →
    t.AllNamed ∧ ∀ r, t.run = .faulted r → r.kind ≠ .illegalOpcode

/-- The inputs of the block keep the invariant as well. -/
def Obligations.HostInputsKeepTheInvariant : Prop :=
  ∀ (e : HostEvent) (s t : State), s.Inv → hostStep e s = .next t → t.Inv

/-! ### Reset and the host interface -/

/-- R150. Power-on zeroes the registers and every cell, empties the output, leaves the machine IDLE and the
load address 0; every cell is then `data 0`. Whenever the machine is not running, the input has this effect
from every state; that it is not accepted during a run is `HostActsOnlyOutsideARun`. -/
def Obligations.PowerOnZeroesEverything : Prop :=
  (∀ s : State, s.run ≠ .running → hostStep .powerOn s = .next State.powerOn) ∧
  (State.powerOn.acc = 0 ∧ State.powerOn.pc = 0 ∧ State.powerOn.cond = false ∧
    State.powerOn.out = [] ∧ State.powerOn.run = .idle ∧
    ∀ a, State.powerOn.mem.readCell a = packCell 0 0 ∧
      decodeCell (State.powerOn.mem.readCell a) = .ok (.data 0)) ∧
  ∀ text, (Loader.fresh text).la = 0 ∧ ∀ a, (Loader.fresh text).mem.readCell a = packCell 0 0

/-- 70_reset_and_hazards.md section 1: run-reset, accepted whenever the machine is not running, zeroes the
registers, empties the output, clears the fault record, keeps every cell and starts at address 0; after
power-on it gives the reset state. Run-reset from HALTED and FAULTED is decision D15; that run-reset while
RUNNING is refused, and the refusal's name, is the model's own choice (log entry 14). -/
def Obligations.RunResetKeepsMemoryOnly : Prop :=
  (∀ s : State, s.run ≠ .running → ∃ t, hostStep .runReset s = .next t ∧
    t = { acc := 0, pc := 0, cond := false, run := .running, mem := s.mem, out := [] }) ∧
  (∀ s : State, s.run = .running → hostStep .runReset s = .refused .runResetWhileRunning) ∧
  hostStep .runReset State.powerOn = .next State.reset

/-- 60_exceptions.md section 6: a `load` is accepted only while IDLE and writes the one cell, both fields.
The refusal's name is the model's own (log entry 14). -/
def Obligations.LoadIsAcceptedOnlyWhileIdle : Prop :=
  ∀ (a : Addr) (w : CellWord) (s : State),
    (s.run = .idle → ∃ m : Memory, hostStep (.load a w) s = .next { s with mem := m } ∧
      (s.mem.wf = true → m.readCell a = w) ∧ ∀ b, b ≠ a → m.readCell b = s.mem.readCell b) ∧
    (s.run ≠ .idle → hostStep (.load a w) s = .refused .loadWhileNotIdle)

/-- 60_exceptions.md section 6: exit code 0 for a completed run and for a dump, 1 for every fault at load or
run time, none for a run that has not ended. The printed message is out of scope (log entry 21). -/
def Obligations.ExitCodes : Prop :=
  (∀ r, RunState.exitCode .halted = some 0 ∧ RunState.exitCode (.faulted r) = some 1 ∧
    RunState.exitCode .running = none) ∧
  ∀ text : List Char,
    (∀ e, load text = .error e → ∀ mode, (boot text mode).exitCode = some 1) ∧
    (∀ l, load text = .ok l → (boot text .dump).exitCode = some 0 ∧
      (boot text .execute).exitCode = none)

/-! ### The loader, the dump and the output text -/

/-- 30_encoding.md section 5, the mnemonic: name lookup is a case-insensitive exact match against the table.
A name gives an opcode exactly when the table's slot of that opcode carries the lower-case name; the lower
case of the letters 65 to 90 is the letter 32 codes on and every other character is its own; no text gives
16, 17 or more than 18; no match is IllegalOpcode. That the letters are the ASCII ones is decision D13 (log
entry 10). -/
def Obligations.LookupIsCaseInsensitiveExactMatch : Prop :=
  (∀ (name : List Char) (op : Byte),
    lookup name = some op ↔ ∃ b, slotOf op = some (.named (name.map toLower) b)) ∧
  (∀ c : Char, if 65 ≤ c.toNat ∧ c.toNat ≤ 90 then (toLower c).toNat = c.toNat + 32 else toLower c = c) ∧
  (∀ (name : List Char) (op : Byte), lookup name = some op → op.toNat ≤ 15 ∨ op.toNat = 18) ∧
  [['d', 'a', 't', 'a'], ['h', 'l', 't'], ['p', 'r', 'i', 'n', 't'], ['s', 'l', 'e', 'e', 'p'],
    ['l', 'd', 'c'], ['l', 'd', 'a'], ['s', 't', 'a'], ['a', 'd', 'd'], ['s', 'u', 'b'], ['j', 'm', 'p'],
    ['c', 'm', 'p', 'e'], ['j', 'c'], ['c', 'm', 'p', 'g', 'r'], ['c', 'm', 'p', 'l', 'e'],
    ['n', 'e', 'g'], ['a', 'n', 'd'], ['p', 'o', 'u', 't']].map lookup =
    [some 0, some 1, some 2, some 3, some 4, some 5, some 6, some 7, some 8, some 9, some 10, some 11,
      some 12, some 13, some 14, some 15, some 18] ∧
  ∀ (l : Loader) (cs : List Char), lookup (takeAlpha cs).1 = none →
    ∃ e, loadInstr l cs = .error e ∧ e.kind = .illegalOpcode

/-- 30_encoding.md section 5, the operand: after exactly one space comes a decimal operand, rejected above
255; a character that is no digit there is an InputMistake naming it; without the space the operand is 0
and nothing is consumed. That a literal is unbounded is decision D14 (log entry 11); the form of the error
is the model's own (log entry 21). -/
def Obligations.OperandIsDecimalUpTo255 : Prop :=
  (∀ (la : Nat) (ds rest : List Char), ds ≠ [] → (∀ c ∈ ds, isDigit c = true) →
    (∀ c cs, rest = c :: cs → isDigit c = false) →
    parseOperand la (' ' :: ds ++ rest) =
      if digitsValue ds ≤ 255 then .ok (digitsValue ds, rest)
      else .error ⟨.invalidOperand, la, .literal (digitsValue ds)⟩) ∧
  (∀ (la : Nat) (c : Char) (cs : List Char), isDigit c = false →
    parseOperand la (' ' :: c :: cs) = .error ⟨.inputMistake, la, .unexpected (some c)⟩) ∧
  (∀ la : Nat, parseOperand la [' '] = .error ⟨.inputMistake, la, .unexpected none⟩) ∧
  ∀ (la : Nat) (cs : List Char), (∀ rest, cs ≠ ' ' :: rest) → parseOperand la cs = .ok (0, cs)

/-- 30_encoding.md section 5, the address directive: digits at once after the `@` set the load address where
they are at most 127, write nothing and leave the rest of the line; above 127 the fault is IllegalAddress;
a character that is no digit is an InputMistake naming it, and so is the end of the stream, which has none to
name. That the digits follow at once and are unbounded is decisions D24 and D14 (log entry 11); the form of
the errors, the literal that IllegalAddress carries among it, is the model's own (log entry 21). -/
def Obligations.DirectiveSetsTheLoadAddress : Prop :=
  (∀ (l : Loader) (ds rest : List Char), ds ≠ [] → (∀ c ∈ ds, isDigit c = true) →
    (∀ c cs, rest = c :: cs → isDigit c = false) →
    loadItem l '@' (ds ++ rest) =
      if digitsValue ds ≤ 127 then .ok { l with chars := rest, la := digitsValue ds }
      else .error ⟨.illegalAddress, l.la, .literal (digitsValue ds)⟩) ∧
  (∀ (l : Loader) (c : Char) (cs : List Char), isDigit c = false →
    loadItem l '@' (c :: cs) = .error ⟨.inputMistake, l.la, .unexpected (some c)⟩) ∧
  ∀ l : Loader, loadItem l '@' [] = .error ⟨.inputMistake, l.la, .unexpected none⟩

/-- 30_encoding.md section 5, the write: an instruction is written at the load address, opcode kept, other
cells left alone, and the load address advances; at load address 128 the fault is IllegalAddress. That the
check sits in the write is decision D12 (log entry 12); the form of the error, its empty token `noRoom`
among it, is the model's own (log entry 21). -/
def Obligations.LoaderWritesWholeCellAndChecksThere : Prop :=
  ∀ (l : Loader) (op n : Byte) (rest : List Char),
    (∀ a : Addr, l.la = a.toNat → ∃ l', placeInstr l op n.toNat rest = .ok l' ∧ l'.la = l.la + 1 ∧
      l'.chars = discardLine rest ∧ (l.mem.wf = true → l'.mem.readCell a = packCell op n) ∧
      ∀ b, b ≠ a → l'.mem.readCell b = l.mem.readCell b) ∧
    (127 < l.la → placeInstr l op n.toNat rest = .error ⟨.illegalAddress, l.la, .noRoom⟩)

/-- 30_encoding.md section 5: the text of up to 128 instructions, one source line each, loads without error
and places every instruction's cell at its own address, nothing elsewhere, and leaves the load address
after the last one. That the 128th may stand at 127 is decision D12, that leading zeros are allowed is D14
(log entries 11 and 12). -/
def Obligations.SourceTextLoadsAsItsEncoding : Prop :=
  ∀ is : List Instr, is.length ≤ 128 →
    ∃ l, load (is.flatMap sourceLine) = .ok l ∧ l.la = is.length ∧
      ∀ a : Addr, l.mem.readCell a =
        if h : a.toNat < is.length then encodeCell (is[a.toNat]'h) else 0

/-- 30_encoding.md section 5: after any successful load memory is canonical, every cell holds an
instruction, and the load address is at most 128. -/
def Obligations.LoadedMemoryHoldsInstructionsOnly : Prop :=
  ∀ (text : List Char) (l : Loader), load text = .ok l →
    l.mem.wf = true ∧ l.la ≤ 128 ∧ ∀ a, namedCell (l.mem.readCell a) = true

/-- 60_exceptions.md section 1: a load-time fault is one of the loader's four kinds, and the machine is then
never started, in either mode. -/
def Obligations.LoadFaultsAreTheLoadersFourKinds : Prop :=
  ∀ (text : List Char) (e : LoadError), load text = .error e →
    (e.kind = .inputMistake ∨ e.kind = .illegalOpcode ∨ e.kind = .illegalAddress ∨
      e.kind = .invalidOperand) ∧ e.la ≤ 128 ∧ ∀ mode, boot text mode = .loadFailed e

/-- Whatever the source text, a machine booted from it never faults with IllegalOpcode, however many steps
it takes (10_state.md section 4, 30_encoding.md section 4). -/
def Obligations.BootedMachineNeverMeetsIllegalOpcode : Prop :=
  ∀ (text : List Char) (s : State), boot text .execute = .started s →
    ∀ (k : Nat) (t : State), Host.Core.run Sys2Proof.core k s = .next t →
      ∀ r, t.run = .faulted r → r.kind = .illegalAddress ∨ r.kind = .overflowUnderflow

/-- 30_encoding.md section 6: the dump lists exactly the nonzero cells with their two fields, in ascending
address order. Which slots count as nonzero is decision D22 (log entry 16). -/
def Obligations.DumpListsNonzeroCellsAscending : Prop :=
  ∀ m : Memory,
    (∀ d : DumpSlot, d ∈ dump m ↔
      m.readCell d.addr ≠ 0 ∧ m.readCell d.addr = packCell d.opcode d.operand) ∧
    (dump m).Pairwise fun d e => d.addr.toNat < e.addr.toNat

/-- 10_state.md section 5: the rendering of the output stream as text is injective, and the three digits of a
value read back as it. The meaning of the format strings is general knowledge the spec marks as such (log
entry 9). -/
def Obligations.RenderingIsInjective : Prop :=
  (∀ o o' : List OutEvent, renderOut o = renderOut o' → o = o') ∧
  ∀ v : Byte, takeDigits 0 (threeDigits v) = (v.toNat, [])

/-! ### When the host acts -/

/-- 10_state.md section 6, 60_exceptions.md sections 2 and 6: the host acts only outside a run. No input is
accepted while RUNNING; outside a run power-on and run-reset are, and a load while IDLE. That HALTED and
FAULTED accept run-reset is decision D15, that the inputs are these three is D8; that an input not accepted
is refused, and not ignored, is the model's own choice (log entry 14). -/
def Obligations.HostActsOnlyOutsideARun : Prop :=
  ∀ (e : HostEvent) (s : State),
    (s.run = .running → ∃ r, hostStep e s = .refused r) ∧
    ((∃ t, hostStep e s = .next t) ↔ s.run ≠ .running ∧ ∀ a w, e = .load a w → s.run = .idle)
end

