-- ==== Sys2Proof/Laws/Memory.lean ====
section
/-! SUPPORT. The laws of memory: a read after a write, what a write leaves alone, and that every memory
operation keeps the canonical form, in which equal memories are equal lists. -/

namespace Sys2Proof.Machine

/-! ### The canonical form -/

theorem Memory.wfFrom_cons {lo k : Nat} {v : Byte} {m : Memory} :
    Memory.wfFrom lo ((k, v) :: m) = true ↔
      lo ≤ k ∧ k < memKeys ∧ v ≠ Config.unlisted ∧ Memory.wfFrom (k + 1) m = true := by
  simp [Memory.wfFrom, and_assoc]

theorem Memory.wfFrom_mono {lo lo' : Nat} {m : Memory} (h : lo ≤ lo') :
    Memory.wfFrom lo' m = true → Memory.wfFrom lo m = true := by
  cases m with
  | nil => simp [Memory.wfFrom]
  | cons e rest =>
    intro hm
    obtain ⟨h1, h2, h3, h4⟩ := Memory.wfFrom_cons.1 hm
    exact Memory.wfFrom_cons.2 ⟨h.trans h1, h2, h3, h4⟩

/-- No key below `lo` is listed in a memory that is canonical from `lo` on. -/
theorem Memory.readByte_below {m : Memory} {lo k : Nat} (hm : Memory.wfFrom lo m = true) (hk : k < lo) :
    m.readByte k = Config.unlisted := by
  induction m generalizing lo with
  | nil => rfl
  | cons e rest ih =>
    obtain ⟨h1, -, -, h4⟩ := Memory.wfFrom_cons.1 hm
    have hne : e.1 ≠ k := by omega
    rw [Memory.readByte, if_neg hne]
    exact ih h4 (by omega)

/-- No key at or above `memKeys` is listed in a canonical memory. -/
theorem Memory.readByte_above {m : Memory} {lo k : Nat} (hm : Memory.wfFrom lo m = true)
    (hk : memKeys ≤ k) : m.readByte k = Config.unlisted := by
  induction m generalizing lo with
  | nil => rfl
  | cons e rest ih =>
    obtain ⟨-, h2, -, h4⟩ := Memory.wfFrom_cons.1 hm
    have hne : e.1 ≠ k := by omega
    rw [Memory.readByte, if_neg hne]
    exact ih h4

/-! ### One byte -/

theorem Memory.readByte_entry_append_same {m : Memory} {k : Nat} {v : Byte}
    (hm : m.readByte k = Config.unlisted) : Memory.readByte (Memory.entry k v ++ m) k = v := by
  unfold Memory.entry
  split
  · simp_all
  · simp [Memory.readByte]

theorem Memory.readByte_entry_append_ne {m : Memory} {j k : Nat} {v : Byte} (h : j ≠ k) :
    Memory.readByte (Memory.entry k v ++ m) j = m.readByte j := by
  unfold Memory.entry
  split
  · simp
  · simp [Memory.readByte, Ne.symm h]

/-- A read after a write of the same byte gives the value written. -/
theorem Memory.readByte_writeByte_same {m : Memory} {lo k : Nat} {v : Byte}
    (hm : Memory.wfFrom lo m = true) : (m.writeByte k v).readByte k = v := by
  induction m generalizing lo with
  | nil => simpa [Memory.writeByte] using Memory.readByte_entry_append_same (m := []) (v := v) rfl
  | cons e rest ih =>
    obtain ⟨h1, h2, h3, h4⟩ := Memory.wfFrom_cons.1 hm
    rw [Memory.writeByte]
    split
    · refine Memory.readByte_entry_append_same ?_
      exact Memory.readByte_below (lo := e.1) (Memory.wfFrom_cons.2 ⟨le_rfl, h2, h3, h4⟩) ‹_›
    · split
      · refine Memory.readByte_entry_append_same (Memory.readByte_below h4 (by omega))
      · have hne : e.1 ≠ k := by omega
        rw [Memory.readByte, if_neg hne]
        exact ih h4

/-- A write leaves every other byte as it was. -/
theorem Memory.readByte_writeByte_ne (m : Memory) {j k : Nat} {v : Byte} (h : j ≠ k) :
    (m.writeByte k v).readByte j = m.readByte j := by
  induction m with
  | nil => simpa [Memory.writeByte] using Memory.readByte_entry_append_ne (m := []) (v := v) h
  | cons e rest ih =>
    rw [Memory.writeByte]
    split
    · exact Memory.readByte_entry_append_ne h
    · split
      · have hne : e.1 ≠ j := by omega
        rw [Memory.readByte_entry_append_ne h, Memory.readByte, if_neg hne]
      · simp only [Memory.readByte, ih]

theorem Memory.wfFrom_entry_append {m : Memory} {lo k : Nat} {v : Byte} (hlo : lo ≤ k)
    (hk : k < memKeys) (hm : Memory.wfFrom (k + 1) m = true) :
    Memory.wfFrom lo (Memory.entry k v ++ m) = true := by
  unfold Memory.entry
  split
  · exact Memory.wfFrom_mono (by omega) hm
  · exact Memory.wfFrom_cons.2 ⟨hlo, hk, ‹_›, hm⟩

/-- A write keeps the canonical form. -/
theorem Memory.wfFrom_writeByte {m : Memory} {lo k : Nat} {v : Byte}
    (hm : Memory.wfFrom lo m = true) (hlo : lo ≤ k) (hk : k < memKeys) :
    Memory.wfFrom lo (m.writeByte k v) = true := by
  induction m generalizing lo with
  | nil => simpa [Memory.writeByte] using Memory.wfFrom_entry_append (m := []) (v := v) hlo hk rfl
  | cons e rest ih =>
    obtain ⟨h1, h2, h3, h4⟩ := Memory.wfFrom_cons.1 hm
    rw [Memory.writeByte]
    split
    · refine Memory.wfFrom_entry_append hlo hk ?_
      exact Memory.wfFrom_cons.2 ⟨by omega, h2, h3, h4⟩
    · split
      · exact Memory.wfFrom_entry_append hlo hk (Memory.wfFrom_mono (by omega) h4)
      · exact Memory.wfFrom_cons.2 ⟨h1, h2, h3, ih h4 (by omega)⟩

theorem Memory.wf_writeByte {m : Memory} {k : Nat} {v : Byte} (hm : m.wf = true) (hk : k < memKeys) :
    (m.writeByte k v).wf = true :=
  Memory.wfFrom_writeByte hm (Nat.zero_le k) hk

/-! ### Keys and cells -/

theorem opcodeKey_lt (a : Addr) : opcodeKey a < memKeys := by
  have := a.isLt
  simp only [opcodeKey, memKeys, Config.memCells]
  omega

theorem operandKey_lt (a : Addr) : operandKey a < memKeys := by
  have := a.isLt
  simp only [operandKey, memKeys, Config.memCells]
  omega

theorem opcodeKey_ne_operandKey (a b : Addr) : opcodeKey a ≠ operandKey b := by
  simp only [opcodeKey, operandKey]
  omega

theorem opcodeKey_ne {a b : Addr} (h : a ≠ b) : opcodeKey a ≠ opcodeKey b := by
  simp only [opcodeKey]
  intro hk
  exact h (BitVec.eq_of_toNat_eq (by omega))

theorem operandKey_ne {a b : Addr} (h : a ≠ b) : operandKey a ≠ operandKey b := by
  simp only [operandKey]
  intro hk
  exact h (BitVec.eq_of_toNat_eq (by omega))

theorem toNat_packCell (o n : Byte) : (packCell o n).toNat = o.toNat * 256 + n.toNat := by
  simp only [packCell, BitVec.toNat_ofNat]
  omega

theorem toNat_opcodeOf (w : CellWord) : (opcodeOf w).toNat = w.toNat / 256 := by
  simp only [opcodeOf, BitVec.extractLsb'_toNat, Nat.shiftRight_eq_div_pow]
  omega

theorem toNat_operandOf (w : CellWord) : (operandOf w).toNat = w.toNat % 256 := by
  simp only [operandOf, BitVec.extractLsb'_toNat, Nat.shiftRight_zero]

@[simp] theorem opcodeOf_packCell (o n : Byte) : opcodeOf (packCell o n) = o :=
  BitVec.eq_of_toNat_eq (by rw [toNat_opcodeOf, toNat_packCell]; omega)

@[simp] theorem operandOf_packCell (o n : Byte) : operandOf (packCell o n) = n :=
  BitVec.eq_of_toNat_eq (by rw [toNat_operandOf, toNat_packCell]; omega)

@[simp] theorem packCell_fields (w : CellWord) : packCell (opcodeOf w) (operandOf w) = w :=
  BitVec.eq_of_toNat_eq (by rw [toNat_packCell, toNat_opcodeOf, toNat_operandOf]; omega)

/-- A cell that nothing has written is the zero cell (R15). -/
@[simp] theorem Memory.readCell_nil (a : Addr) : Memory.readCell [] a = 0 := by
  simp only [Memory.readCell, Memory.readByte, Config.unlisted]
  decide

/-- Writing a cell keeps the canonical form. -/
theorem Memory.wf_writeCell {m : Memory} {a : Addr} {w : CellWord} (hm : m.wf = true) :
    (m.writeCell a w).wf = true :=
  Memory.wf_writeByte (Memory.wf_writeByte hm (opcodeKey_lt a)) (operandKey_lt a)

theorem Memory.wf_writeData {m : Memory} {a : Addr} {v : Byte} (hm : m.wf = true) :
    (m.writeData a v).wf = true :=
  Memory.wf_writeCell hm

/-- A read of the cell just written gives the cell written. -/
theorem Memory.readCell_writeCell_same {m : Memory} {a : Addr} {w : CellWord} (hm : m.wf = true) :
    (m.writeCell a w).readCell a = w := by
  have h1 := Memory.wf_writeByte (v := opcodeOf w) hm (opcodeKey_lt a)
  simp only [Memory.readCell, Memory.writeCell]
  rw [Memory.readByte_writeByte_ne _ (opcodeKey_ne_operandKey a a),
    Memory.readByte_writeByte_same hm, Memory.readByte_writeByte_same h1, packCell_fields]

/-- Writing a cell leaves every other byte as it was. -/
theorem Memory.readByte_writeCell_ne (m : Memory) {a : Addr} {w : CellWord} {k : Nat}
    (h1 : k ≠ opcodeKey a) (h2 : k ≠ operandKey a) : (m.writeCell a w).readByte k = m.readByte k := by
  rw [Memory.writeCell, Memory.readByte_writeByte_ne _ h2, Memory.readByte_writeByte_ne _ h1]

/-- Writing a cell leaves every other cell as it was. -/
theorem Memory.readCell_writeCell_ne (m : Memory) {a b : Addr} {w : CellWord} (h : b ≠ a) :
    (m.writeCell a w).readCell b = m.readCell b := by
  simp only [Memory.readCell]
  rw [Memory.readByte_writeCell_ne m (opcodeKey_ne h) (opcodeKey_ne_operandKey b a),
    Memory.readByte_writeCell_ne m (opcodeKey_ne_operandKey a b).symm (operandKey_ne h)]

/-- The data read is the operand field of the cell. -/
theorem Memory.readData_eq (m : Memory) (a : Addr) : m.readData a = operandOf (m.readCell a) := by
  simp [Memory.readData, Memory.readCell]

end Sys2Proof.Machine
end

