-- ==== Sys2Proof/Laws/State.lean ====
section
/-! SUPPORT. One lemma per field of State per update, all true by definition, so that no proof unfolds a
record update. -/

namespace Sys2Proof.Machine

/-! ### setAcc -/

@[simp] theorem State.setAcc_acc (s : State) (v : Byte) :
    (s.setAcc v).acc = v := rfl
@[simp] theorem State.setAcc_pc (s : State) (v : Byte) :
    (s.setAcc v).pc = s.pc := rfl
@[simp] theorem State.setAcc_cond (s : State) (v : Byte) :
    (s.setAcc v).cond = s.cond := rfl
@[simp] theorem State.setAcc_run (s : State) (v : Byte) :
    (s.setAcc v).run = s.run := rfl
@[simp] theorem State.setAcc_mem (s : State) (v : Byte) :
    (s.setAcc v).mem = s.mem := rfl
@[simp] theorem State.setAcc_out (s : State) (v : Byte) :
    (s.setAcc v).out = s.out := rfl

/-! ### setPc -/

@[simp] theorem State.setPc_acc (s : State) (a : Addr) :
    (s.setPc a).acc = s.acc := rfl
@[simp] theorem State.setPc_pc (s : State) (a : Addr) :
    (s.setPc a).pc = a := rfl
@[simp] theorem State.setPc_cond (s : State) (a : Addr) :
    (s.setPc a).cond = s.cond := rfl
@[simp] theorem State.setPc_run (s : State) (a : Addr) :
    (s.setPc a).run = s.run := rfl
@[simp] theorem State.setPc_mem (s : State) (a : Addr) :
    (s.setPc a).mem = s.mem := rfl
@[simp] theorem State.setPc_out (s : State) (a : Addr) :
    (s.setPc a).out = s.out := rfl

/-! ### setCond -/

@[simp] theorem State.setCond_acc (s : State) (b : Bool) :
    (s.setCond b).acc = s.acc := rfl
@[simp] theorem State.setCond_pc (s : State) (b : Bool) :
    (s.setCond b).pc = s.pc := rfl
@[simp] theorem State.setCond_cond (s : State) (b : Bool) :
    (s.setCond b).cond = b := rfl
@[simp] theorem State.setCond_run (s : State) (b : Bool) :
    (s.setCond b).run = s.run := rfl
@[simp] theorem State.setCond_mem (s : State) (b : Bool) :
    (s.setCond b).mem = s.mem := rfl
@[simp] theorem State.setCond_out (s : State) (b : Bool) :
    (s.setCond b).out = s.out := rfl

/-! ### setRun -/

@[simp] theorem State.setRun_acc (s : State) (r : RunState) :
    (s.setRun r).acc = s.acc := rfl
@[simp] theorem State.setRun_pc (s : State) (r : RunState) :
    (s.setRun r).pc = s.pc := rfl
@[simp] theorem State.setRun_cond (s : State) (r : RunState) :
    (s.setRun r).cond = s.cond := rfl
@[simp] theorem State.setRun_run (s : State) (r : RunState) :
    (s.setRun r).run = r := rfl
@[simp] theorem State.setRun_mem (s : State) (r : RunState) :
    (s.setRun r).mem = s.mem := rfl
@[simp] theorem State.setRun_out (s : State) (r : RunState) :
    (s.setRun r).out = s.out := rfl

/-! ### setMem -/

@[simp] theorem State.setMem_acc (s : State) (m : Memory) :
    (s.setMem m).acc = s.acc := rfl
@[simp] theorem State.setMem_pc (s : State) (m : Memory) :
    (s.setMem m).pc = s.pc := rfl
@[simp] theorem State.setMem_cond (s : State) (m : Memory) :
    (s.setMem m).cond = s.cond := rfl
@[simp] theorem State.setMem_run (s : State) (m : Memory) :
    (s.setMem m).run = s.run := rfl
@[simp] theorem State.setMem_mem (s : State) (m : Memory) :
    (s.setMem m).mem = m := rfl
@[simp] theorem State.setMem_out (s : State) (m : Memory) :
    (s.setMem m).out = s.out := rfl

/-! ### emit -/

@[simp] theorem State.emit_acc (s : State) (ch : Channel) :
    (s.emit ch).acc = s.acc := rfl
@[simp] theorem State.emit_pc (s : State) (ch : Channel) :
    (s.emit ch).pc = s.pc := rfl
@[simp] theorem State.emit_cond (s : State) (ch : Channel) :
    (s.emit ch).cond = s.cond := rfl
@[simp] theorem State.emit_run (s : State) (ch : Channel) :
    (s.emit ch).run = s.run := rfl
@[simp] theorem State.emit_mem (s : State) (ch : Channel) :
    (s.emit ch).mem = s.mem := rfl
@[simp] theorem State.emit_out (s : State) (ch : Channel) :
    (s.emit ch).out = s.out ++ [⟨ch, s.acc⟩] := rfl

/-! ### advance -/

@[simp] theorem State.advance_acc (s : State) :
    (s.advance).acc = s.acc := rfl
@[simp] theorem State.advance_pc (s : State) :
    (s.advance).pc = s.pc + 1 := rfl
@[simp] theorem State.advance_cond (s : State) :
    (s.advance).cond = s.cond := rfl
@[simp] theorem State.advance_run (s : State) :
    (s.advance).run = s.run := rfl
@[simp] theorem State.advance_mem (s : State) :
    (s.advance).mem = s.mem := rfl
@[simp] theorem State.advance_out (s : State) :
    (s.advance).out = s.out := rfl

/-! ### writeData -/

@[simp] theorem State.writeData_acc (s : State) (a : Addr) (v : Byte) :
    (s.writeData a v).acc = s.acc := rfl
@[simp] theorem State.writeData_pc (s : State) (a : Addr) (v : Byte) :
    (s.writeData a v).pc = s.pc := rfl
@[simp] theorem State.writeData_cond (s : State) (a : Addr) (v : Byte) :
    (s.writeData a v).cond = s.cond := rfl
@[simp] theorem State.writeData_run (s : State) (a : Addr) (v : Byte) :
    (s.writeData a v).run = s.run := rfl
@[simp] theorem State.writeData_mem (s : State) (a : Addr) (v : Byte) :
    (s.writeData a v).mem = s.mem.writeData a v := rfl
@[simp] theorem State.writeData_out (s : State) (a : Addr) (v : Byte) :
    (s.writeData a v).out = s.out := rfl

/-! ### placeCell -/

@[simp] theorem State.placeCell_acc (s : State) (w : CellWord) :
    (s.placeCell w).acc = s.acc := rfl
@[simp] theorem State.placeCell_pc (s : State) (w : CellWord) :
    (s.placeCell w).pc = s.pc := rfl
@[simp] theorem State.placeCell_cond (s : State) (w : CellWord) :
    (s.placeCell w).cond = s.cond := rfl
@[simp] theorem State.placeCell_run (s : State) (w : CellWord) :
    (s.placeCell w).run = .running := rfl
@[simp] theorem State.placeCell_mem (s : State) (w : CellWord) :
    (s.placeCell w).mem = s.mem.writeCell s.pc w := rfl
@[simp] theorem State.placeCell_out (s : State) (w : CellWord) :
    (s.placeCell w).out = s.out := rfl

/-! ### raise -/

@[simp] theorem State.raise_acc (s : State) (k : FaultKind) (sub : SubCause) :
    (s.raise k sub).acc = s.acc := rfl
@[simp] theorem State.raise_pc (s : State) (k : FaultKind) (sub : SubCause) :
    (s.raise k sub).pc = s.pc + 1 := rfl
@[simp] theorem State.raise_cond (s : State) (k : FaultKind) (sub : SubCause) :
    (s.raise k sub).cond = s.cond := rfl
@[simp] theorem State.raise_run (s : State) (k : FaultKind) (sub : SubCause) :
    (s.raise k sub).run = .faulted ⟨k, sub, s.pc⟩ := rfl
@[simp] theorem State.raise_mem (s : State) (k : FaultKind) (sub : SubCause) :
    (s.raise k sub).mem = s.mem := rfl
@[simp] theorem State.raise_out (s : State) (k : FaultKind) (sub : SubCause) :
    (s.raise k sub).out = s.out := rfl

/-! ### compare -/

@[simp] theorem State.compare_acc (s : State) (b : Bool) :
    (s.compare b).acc = s.acc := rfl
@[simp] theorem State.compare_pc (s : State) (b : Bool) :
    (s.compare b).pc = s.pc + 1 := rfl
@[simp] theorem State.compare_cond (s : State) (b : Bool) :
    (s.compare b).cond = b := rfl
@[simp] theorem State.compare_run (s : State) (b : Bool) :
    (s.compare b).run = s.run := rfl
@[simp] theorem State.compare_mem (s : State) (b : Bool) :
    (s.compare b).mem = s.mem := rfl
@[simp] theorem State.compare_out (s : State) (b : Bool) :
    (s.compare b).out = s.out := rfl

/-! ### runReset -/

@[simp] theorem State.runReset_acc (s : State) :
    (s.runReset).acc = 0 := rfl
@[simp] theorem State.runReset_pc (s : State) :
    (s.runReset).pc = Config.entryPoint := rfl
@[simp] theorem State.runReset_cond (s : State) :
    (s.runReset).cond = false := rfl
@[simp] theorem State.runReset_run (s : State) :
    (s.runReset).run = .running := rfl
@[simp] theorem State.runReset_mem (s : State) :
    (s.runReset).mem = s.mem := rfl
@[simp] theorem State.runReset_out (s : State) :
    (s.runReset).out = [] := rfl

end Sys2Proof.Machine
end

