-- ==== Sys2Proof/Laws/Ops.lean ====
section
/-! SUPPORT. For each shared operation, one lemma that says all it can do. -/

namespace Sys2Proof.Machine

/-! ### Decode -/

theorem decode_pair (op n : Byte) (rest : List Byte) :
    decode (op :: n :: rest) =
      match decodeFields op n with
      | .ok i => .ok (i, rest)
      | .error e => .error e := rfl

/-- What decodes has the opcode and the operand it was decoded from. -/
theorem decodeFields_ok {op n : Byte} {i : Instr} (h : decodeFields op n = .ok i) :
    i.opcode = op ∧ i.operand = n := by
  unfold decodeFields at h
  split at h <;> first | contradiction | skip
  all_goals
    cases h
    refine ⟨BitVec.eq_of_toNat_eq ?_, rfl⟩
    rw [‹op.toNat = _›]
    rfl

/-- What does not decode is rejected by its opcode. -/
theorem decodeFields_error {op n : Byte} {e : DecodeError} (h : decodeFields op n = .error e) :
    e = .illegalOpcode op := by
  unfold decodeFields at h
  split at h <;> first | contradiction | skip
  cases h
  rfl

/-- The fetch answers what the cell at the program counter decodes to. -/
theorem State.fetchInstr_eq (s : State) : s.fetchInstr = decodeCell s.fetchCell := by
  simp only [State.fetchInstr, State.fetchBytes, cellBytes, decode_pair, decodeCell]
  cases decodeFields (opcodeOf s.fetchCell) (operandOf s.fetchCell) <;> rfl

/-! ### The address decoder and the operand forms -/

/-- `CheckAddr` answers the address itself, and only for 0 to 127. -/
theorem checkAddr_some {n : Byte} {a : Addr} :
    checkAddr n = some a ↔ n.toNat ≤ 127 ∧ a.toNat = n.toNat := by
  unfold checkAddr Config.addrMax
  constructor
  · split
    · intro h
      cases h
      refine ⟨‹_›, ?_⟩
      simp only [BitVec.extractLsb'_toNat, Nat.shiftRight_zero]
      omega
    · intro h
      cases h
  · rintro ⟨h1, h2⟩
    rw [if_pos h1]
    refine congrArg some (BitVec.eq_of_toNat_eq ?_)
    simp only [BitVec.extractLsb'_toNat, Nat.shiftRight_zero]
    omega

theorem checkAddr_none {n : Byte} : checkAddr n = none ↔ 127 < n.toNat := by
  unfold checkAddr Config.addrMax
  split
  · simp only [reduceCtorEq, false_iff]
    omega
  · simp only [true_iff]
    omega

/-- What an address operand can do: use a checked address, or raise IllegalAddress. -/
theorem withAddress_cases {n : Byte} {s t : State} {k : Addr → State}
    (h : withAddress n s k = .next t) :
    (∃ a, checkAddr n = some a ∧ t = k a) ∨ (127 < n.toNat ∧ t = s.raise .illegalAddress .none) := by
  unfold withAddress at h
  split at h
  · cases h
    exact .inl ⟨_, ‹_›, rfl⟩
  · cases h
    exact .inr ⟨checkAddr_none.1 ‹_›, rfl⟩

/-- What a data operand can do: use the byte at a checked address, or raise IllegalAddress. -/
theorem withData_cases {n : Byte} {s t : State} {k : Byte → State} (h : withData n s k = .next t) :
    (∃ a, checkAddr n = some a ∧ t = k (s.readData a)) ∨
      (127 < n.toNat ∧ t = s.raise .illegalAddress .none) :=
  withAddress_cases h

theorem withAddress_some {n : Byte} {a : Addr} (h : checkAddr n = some a) (s : State)
    (k : Addr → State) : withAddress n s k = .next (k a) := by
  simp only [withAddress, h]

theorem withAddress_none {n : Byte} (h : 127 < n.toNat) (s : State) (k : Addr → State) :
    withAddress n s k = .next (s.raise .illegalAddress .none) := by
  simp only [withAddress, checkAddr_none.2 h]

theorem withData_some {n : Byte} {a : Addr} (h : checkAddr n = some a) (s : State)
    (k : Byte → State) : withData n s k = .next (k (s.readData a)) :=
  withAddress_some h s _

theorem withData_none {n : Byte} (h : 127 < n.toNat) (s : State) (k : Byte → State) :
    withData n s k = .next (s.raise .illegalAddress .none) :=
  withAddress_none h s _

/-! ### The arithmetic unit -/

/-- Narrowing answers exactly the integers of the accumulator's range. -/
theorem narrow_some {x : Int} {v : Byte} :
    narrow x = some v ↔ 0 ≤ x ∧ x ≤ 255 ∧ (v.toNat : Int) = x := by
  unfold narrow
  constructor
  · split
    · intro h
      cases h
      refine ⟨by omega, by omega, ?_⟩
      rw [BitVec.toNat_ofInt]
      omega
    · intro h
      cases h
  · rintro ⟨h1, h2, h3⟩
    rw [if_pos ⟨h1, h2⟩]
    refine congrArg some (BitVec.eq_of_toNat_eq ?_)
    rw [BitVec.toNat_ofInt]
    omega

theorem narrow_none {x : Int} : narrow x = none ↔ x < 0 ∨ 255 < x := by
  unfold narrow
  split
  · simp only [reduceCtorEq, false_iff]
    omega
  · simp only [true_iff]
    omega

/-- What an arithmetic instruction can do: write its result, or raise OverflowUnderflow. -/
theorem State.arith_cases (s : State) (result : Option Byte) (sub : SubCause) :
    (∃ v, result = some v ∧ s.arith result sub = s.advance.setAcc v) ∨
      (result = none ∧ s.arith result sub = s.raise .overflowUnderflow sub) := by
  cases result with
  | none => exact .inr ⟨rfl, rfl⟩
  | some v => exact .inl ⟨v, rfl, rfl⟩

/-! ### The step -/

/-- What a step can do: execute the decoded instruction, or raise IllegalOpcode; only while running. -/
theorem step_cases {s t : State} (h : step s = .next t) :
    s.run = .running ∧
      ((∃ i, decodeCell s.fetchCell = .ok i ∧ exec i s = .next t) ∨
        ((∃ e, decodeCell s.fetchCell = .error e) ∧ t = s.raise .illegalOpcode .none)) := by
  unfold step at h
  split at h
  · refine ⟨‹_›, ?_⟩
    rw [State.fetchInstr_eq] at h
    split at h
    · exact .inl ⟨_, ‹_›, h⟩
    · cases h
      exact .inr ⟨⟨_, ‹_›⟩, rfl⟩
  all_goals cases h

end Sys2Proof.Machine
end

