-- ==== Sys2Proof/Laws/Exec.lean ====
section
/-! SUPPORT. Each meaning as one equation over the shared operations, and one inversion lemma for all of
them: what an instruction can do, said once. -/

namespace Sys2Proof.Machine

/-! ### The equations -/

theorem exec_data (n : Byte) (s : State) : exec (.data n) s = .next s.advance := rfl
theorem exec_hlt (n : Byte) (s : State) : exec (.hlt n) s = .next (s.advance.setRun .halted) := rfl
theorem exec_print (n : Byte) (s : State) : exec (.print n) s = .next (s.advance.emit .print) := rfl
theorem exec_sleep (n : Byte) (s : State) : exec (.sleep n) s = .next s.advance := rfl
theorem exec_pout (n : Byte) (s : State) : exec (.pout n) s = .next (s.advance.emit .pout) := rfl
theorem exec_ldc (n : Byte) (s : State) : exec (.ldc n) s = .next (s.advance.setAcc n) := rfl
theorem exec_lda (n : Byte) (s : State) :
    exec (.lda n) s = withData n s fun d => s.advance.setAcc d := rfl
theorem exec_sta (n : Byte) (s : State) :
    exec (.sta n) s = withAddress n s fun a => s.advance.writeData a s.acc := rfl
theorem exec_add (n : Byte) (s : State) :
    exec (.add n) s = withData n s fun d => s.arith (aluAdd s.acc d) .over := rfl
theorem exec_sub (n : Byte) (s : State) :
    exec (.sub n) s = withData n s fun d => s.arith (aluSub s.acc d) .under := rfl
theorem exec_neg (n : Byte) (s : State) :
    exec (.neg n) s = .next (s.advance.setAcc (aluNeg s.acc)) := rfl
theorem exec_and (n : Byte) (s : State) :
    exec (.and n) s = withData n s fun d => s.advance.setAcc (aluAnd s.acc d) := rfl
theorem exec_jmp (n : Byte) (s : State) :
    exec (.jmp n) s = withAddress n s fun a => s.advance.setPc a := rfl
theorem exec_cmpe (n : Byte) (s : State) :
    exec (.cmpe n) s = withData n s fun d => s.compare (flagEqual s.acc d) := rfl
theorem exec_cmpgr (n : Byte) (s : State) :
    exec (.cmpgr n) s = withData n s fun d => s.compare (flagGreater s.acc d) := rfl
theorem exec_cmple (n : Byte) (s : State) :
    exec (.cmple n) s = withData n s fun d => s.compare (flagLess s.acc d) := rfl

theorem exec_jc_true {s : State} (h : s.cond = true) (n : Byte) :
    exec (.jc n) s = withAddress n s fun a => s.advance.setPc a := by
  simp only [exec, execJc, execJcWith, h, if_true]

theorem exec_jc_false {s : State} (h : s.cond = false) (n : Byte) :
    exec (.jc n) s = .next s.advance := by
  simp [exec, execJc, execJcWith, h, Config.jcChecksUntakenTarget]

/-! ### The inversion -/

/-- Everything an instruction can do in a state `s`: its own effect, or a fault. -/
inductive Effect (s : State) : Instr → State → Prop
  | data (n : Byte) : Effect s (.data n) s.advance
  | hlt (n : Byte) : Effect s (.hlt n) (s.advance.setRun .halted)
  | print (n : Byte) : Effect s (.print n) (s.advance.emit .print)
  | sleep (n : Byte) : Effect s (.sleep n) s.advance
  | pout (n : Byte) : Effect s (.pout n) (s.advance.emit .pout)
  | ldc (n : Byte) : Effect s (.ldc n) (s.advance.setAcc n)
  | lda (n : Byte) (a : Addr) (ha : checkAddr n = some a) :
      Effect s (.lda n) (s.advance.setAcc (s.readData a))
  | sta (n : Byte) (a : Addr) (ha : checkAddr n = some a) :
      Effect s (.sta n) (s.advance.writeData a s.acc)
  | add (n : Byte) (a : Addr) (v : Byte) (ha : checkAddr n = some a)
      (hv : v.toNat = s.acc.toNat + (s.readData a).toNat) : Effect s (.add n) (s.advance.setAcc v)
  | addOver (n : Byte) (a : Addr) (ha : checkAddr n = some a)
      (hv : 255 < s.acc.toNat + (s.readData a).toNat) :
      Effect s (.add n) (s.raise .overflowUnderflow .over)
  | sub (n : Byte) (a : Addr) (v : Byte) (ha : checkAddr n = some a)
      (hv : v.toNat + (s.readData a).toNat = s.acc.toNat) : Effect s (.sub n) (s.advance.setAcc v)
  | subUnder (n : Byte) (a : Addr) (ha : checkAddr n = some a)
      (hv : s.acc.toNat < (s.readData a).toNat) :
      Effect s (.sub n) (s.raise .overflowUnderflow .under)
  | neg (n : Byte) : Effect s (.neg n) (s.advance.setAcc (aluNeg s.acc))
  | and (n : Byte) (a : Addr) (ha : checkAddr n = some a) :
      Effect s (.and n) (s.advance.setAcc (aluAnd s.acc (s.readData a)))
  | jmp (n : Byte) (a : Addr) (ha : checkAddr n = some a) : Effect s (.jmp n) (s.advance.setPc a)
  | jcTaken (n : Byte) (a : Addr) (hc : s.cond = true) (ha : checkAddr n = some a) :
      Effect s (.jc n) (s.advance.setPc a)
  | jcUntaken (n : Byte) (hc : s.cond = false) : Effect s (.jc n) s.advance
  | cmpe (n : Byte) (a : Addr) (ha : checkAddr n = some a) :
      Effect s (.cmpe n) (s.compare (flagEqual s.acc (s.readData a)))
  | cmpgr (n : Byte) (a : Addr) (ha : checkAddr n = some a) :
      Effect s (.cmpgr n) (s.compare (flagGreater s.acc (s.readData a)))
  | cmple (n : Byte) (a : Addr) (ha : checkAddr n = some a) :
      Effect s (.cmple n) (s.compare (flagLess s.acc (s.readData a)))
  | badAddress (i : Instr) (n : Byte) (hi : i.addressOperand = some n) (hn : 127 < n.toNat)
      (hc : (∃ m, i = .jc m) → s.cond = true) : Effect s i (s.raise .illegalAddress .none)

theorem Effect.ofAddress {s t : State} {i : Instr} {n : Byte} {k : Addr → State}
    (hi : i.addressOperand = some n) (hc : (∃ m, i = .jc m) → s.cond = true)
    (hk : ∀ a, checkAddr n = some a → Effect s i (k a)) (h : withAddress n s k = .next t) :
    Effect s i t := by
  obtain ⟨a, ha, rfl⟩ | ⟨hn, rfl⟩ := withAddress_cases h
  · exact hk a ha
  · exact .badAddress i n hi hn hc

/-- What `exec` answers is one of the effects. -/
theorem exec_effect {i : Instr} {s t : State} (h : exec i s = .next t) : Effect s i t := by
  cases i with
  | data n => cases h; exact .data n
  | hlt n => cases h; exact .hlt n
  | print n => cases h; exact .print n
  | sleep n => cases h; exact .sleep n
  | pout n => cases h; exact .pout n
  | ldc n => cases h; exact .ldc n
  | neg n => cases h; exact .neg n
  | lda n => rw [exec_lda] at h; exact .ofAddress rfl (by simp) (fun a ha => .lda n a ha) h
  | sta n => rw [exec_sta] at h; exact .ofAddress rfl (by simp) (fun a ha => .sta n a ha) h
  | and n => rw [exec_and] at h; exact .ofAddress rfl (by simp) (fun a ha => .and n a ha) h
  | jmp n => rw [exec_jmp] at h; exact .ofAddress rfl (by simp) (fun a ha => .jmp n a ha) h
  | cmpe n => rw [exec_cmpe] at h; exact .ofAddress rfl (by simp) (fun a ha => .cmpe n a ha) h
  | cmpgr n => rw [exec_cmpgr] at h; exact .ofAddress rfl (by simp) (fun a ha => .cmpgr n a ha) h
  | cmple n => rw [exec_cmple] at h; exact .ofAddress rfl (by simp) (fun a ha => .cmple n a ha) h
  | jc n =>
    cases hc : s.cond with
    | true =>
      rw [exec_jc_true hc] at h
      exact .ofAddress rfl (fun _ => hc) (fun a ha => .jcTaken n a hc ha) h
    | false =>
      rw [exec_jc_false hc] at h
      cases h
      exact .jcUntaken n hc
  | add n =>
    rw [exec_add] at h
    refine .ofAddress rfl (by simp) (fun a ha => ?_) h
    dsimp only
    obtain ⟨v, hv, he⟩ | ⟨hv, he⟩ := s.arith_cases (aluAdd s.acc (s.readData a)) .over <;> rw [he]
    · obtain ⟨-, -, h3⟩ := narrow_some.1 hv
      exact .add n a v ha (by omega)
    · exact .addOver n a ha (by have := narrow_none.1 hv; omega)
  | sub n =>
    rw [exec_sub] at h
    refine .ofAddress rfl (by simp) (fun a ha => ?_) h
    dsimp only
    obtain ⟨v, hv, he⟩ | ⟨hv, he⟩ := s.arith_cases (aluSub s.acc (s.readData a)) .under <;> rw [he]
    · obtain ⟨-, -, h3⟩ := narrow_some.1 hv
      exact .sub n a v ha (by omega)
    · exact .subUnder n a ha (by have := narrow_none.1 hv; omega)

end Sys2Proof.Machine
end

