-- ==== Sys2Proof/Laws/Interface.lean ====
section
/-! SUPPORT. What an input of the block can do, said once. -/

namespace Sys2Proof.Machine

/-- An accepted input found the machine outside a run, and is a power-on, a load into an idle machine or a
run-reset. -/
theorem hostStep_cases {e : HostEvent} {s t : State} (h : hostStep e s = .next t) :
    s.run ≠ .running ∧
      ((e = .powerOn ∧ t = State.powerOn) ∨
       (∃ a w, e = .load a w ∧ s.run = .idle ∧ t = s.setMem (s.mem.writeCell a w)) ∨
       (e = .runReset ∧ t = s.runReset)) := by
  unfold hostStep at h
  split at h <;> cases h <;> simp_all

end Sys2Proof.Machine
end

