-- ==== Sys2Proof/Laws/Loader.lean ====
section
/-! SUPPORT. The loader's scanners only drop characters, every item consumes at least one, and so the
fuel `load` gives its loop is enough. -/

namespace Sys2Proof.Machine

theorem skipSpace_length (cs : List Char) : (skipSpace cs).length ≤ cs.length := by
  induction cs with
  | nil => simp [skipSpace]
  | cons c cs ih =>
    rw [skipSpace]
    split
    · simp only [List.length_cons]
      omega
    · exact le_rfl

theorem discardLine_length (cs : List Char) : (discardLine cs).length ≤ cs.length := by
  induction cs with
  | nil => simp [discardLine]
  | cons c cs ih =>
    rw [discardLine]
    split
    · simp
    · simp only [List.length_cons]
      omega

theorem takeAlpha_length (cs : List Char) :
    (takeAlpha cs).1.length + (takeAlpha cs).2.length = cs.length := by
  induction cs with
  | nil => simp [takeAlpha]
  | cons c cs ih =>
    rw [takeAlpha]
    split
    · simp only [List.length_cons]
      omega
    · simp

theorem takeDigits_length (n : Nat) (cs : List Char) : (takeDigits n cs).2.length ≤ cs.length := by
  induction cs generalizing n with
  | nil => simp [takeDigits]
  | cons c cs ih =>
    rw [takeDigits]
    split
    · exact (ih _).trans (by simp)
    · exact le_rfl

theorem parseDecimal_length {la : Nat} {cs : List Char} {r : Nat × List Char}
    (h : parseDecimal la cs = .ok r) : r.2.length ≤ cs.length := by
  unfold parseDecimal at h
  split at h
  · cases h
  · split at h
    · cases h
      exact takeDigits_length _ _
    · cases h

theorem parseOperand_length {la : Nat} {cs : List Char} {r : Nat × List Char}
    (h : parseOperand la cs = .ok r) : r.2.length ≤ cs.length := by
  unfold parseOperand at h
  split at h
  · cases h
    simp
  · split at h
    · split at h
      · cases h
      · split at h
        · cases h
        · cases h
          have := parseDecimal_length ‹_›
          simp only [List.length_cons]
          simp only at this
          omega
    · cases h
      exact le_rfl

/-- The empty mnemonic matches no name (R63). -/
theorem lookup_nil : lookup [] = none := by decide

/-- What placing an instruction can do (R66). -/
theorem placeInstr_ok {l l' : Loader} {op : Byte} {n : Nat} {rest : List Char}
    (h : placeInstr l op n rest = .ok l') :
    l.la ≤ 127 ∧ l' =
      { chars := discardLine rest
        la := l.la + 1
        mem := l.mem.writeCell (BitVec.ofNat 7 l.la) (packCell op (BitVec.ofNat 8 n)) } := by
  unfold placeInstr Config.addrMax at h
  split at h
  · cases h
  · cases h
    exact ⟨by omega, rfl⟩

/-- What an instruction item can do (R63 to R67). -/
theorem loadInstr_ok {l l' : Loader} {cs : List Char} (h : loadInstr l cs = .ok l') :
    ∃ op n rest, lookup (takeAlpha cs).1 = some op ∧
      parseOperand l.la (takeAlpha cs).2 = .ok (n, rest) ∧ placeInstr l op n rest = .ok l' := by
  unfold loadInstr at h
  split at h
  · cases h
  · split at h
    · cases h
    · exact ⟨_, _, _, ‹_›, ‹_›, h⟩

/-- What an address directive can do (R61). -/
theorem loadDirective_ok {l l' : Loader} {cs : List Char} (h : loadDirective l cs = .ok l') :
    ∃ n rest, parseDecimal l.la cs = .ok (n, rest) ∧ n ≤ 127 ∧
      l' = { l with chars := rest, la := n } := by
  unfold loadDirective Config.addrMax at h
  split at h
  · cases h
  · split at h
    · cases h
    · cases h
      exact ⟨_, _, ‹_›, by omega, rfl⟩

/-- Every item consumes at least one character. -/
theorem loadItem_shortens {l l' : Loader} {c : Char} {cs : List Char}
    (h : loadItem l c cs = .ok l') : l'.chars.length < (c :: cs).length := by
  unfold loadItem at h
  split at h
  · obtain ⟨n, rest, hp, -, rfl⟩ := loadDirective_ok h
    have := parseDecimal_length hp
    simp only at this
    simp only [List.length_cons]
    omega
  · split at h
    · cases h
      have := discardLine_length cs
      simp only [List.length_cons]
      omega
    · obtain ⟨op, n, rest, hl, hp, hr⟩ := loadInstr_ok h
      obtain ⟨-, rfl⟩ := placeInstr_ok hr
      have h1 := takeAlpha_length (c :: cs)
      have h2 := parseOperand_length hp
      have h3 := discardLine_length rest
      have h4 : (takeAlpha (c :: cs)).1 ≠ [] := by
        intro hnil
        rw [hnil, lookup_nil] at hl
        cases hl
      have h5 := List.length_pos_of_ne_nil h4
      simp only at h2
      simp only at h3 ⊢
      omega

/-- With fuel for every unread character, more fuel makes no difference. -/
theorem loadLoop_fuel (fuel extra : Nat) (l : Loader) (h : l.chars.length < fuel) :
    loadLoop (fuel + extra) l = loadLoop fuel l := by
  induction fuel generalizing l with
  | zero => omega
  | succ fuel ih =>
    rw [Nat.add_right_comm, loadLoop, loadLoop]
    have hs := skipSpace_length l.chars
    split
    · rfl
    · rename_i c cs hc
      rw [hc] at hs
      cases hi : loadItem l c cs with
      | error e => rfl
      | ok l' =>
        have := loadItem_shortens hi
        exact ih l' (by omega)

end Sys2Proof.Machine
end

