-- ==== Sys2Proof/Laws/PerInstr.lean ====
section
/-! SUPPORT. Statements made per instruction: a family is a predicate over instructions as syntax and one
lemma per constructor. `FieldsDecode`: the two fields of an instruction decode to it. `RawIsWellFormed`:
its pair of numbers meets the checks of WellFormed. -/

namespace Sys2Proof.Laws

/-- The two fields of the instruction decode to the instruction (30_encoding.md R53). -/
def FieldsDecode.Statement (i : Instr) : Prop := decodeFields i.opcode i.operand = .ok i

theorem FieldsDecode.data (n : Byte) : FieldsDecode.Statement (.data n) := rfl
theorem FieldsDecode.hlt (n : Byte) : FieldsDecode.Statement (.hlt n) := rfl
theorem FieldsDecode.print (n : Byte) : FieldsDecode.Statement (.print n) := rfl
theorem FieldsDecode.sleep (n : Byte) : FieldsDecode.Statement (.sleep n) := rfl
theorem FieldsDecode.ldc (n : Byte) : FieldsDecode.Statement (.ldc n) := rfl
theorem FieldsDecode.lda (n : Byte) : FieldsDecode.Statement (.lda n) := rfl
theorem FieldsDecode.sta (n : Byte) : FieldsDecode.Statement (.sta n) := rfl
theorem FieldsDecode.add (n : Byte) : FieldsDecode.Statement (.add n) := rfl
theorem FieldsDecode.sub (n : Byte) : FieldsDecode.Statement (.sub n) := rfl
theorem FieldsDecode.jmp (n : Byte) : FieldsDecode.Statement (.jmp n) := rfl
theorem FieldsDecode.cmpe (n : Byte) : FieldsDecode.Statement (.cmpe n) := rfl
theorem FieldsDecode.jc (n : Byte) : FieldsDecode.Statement (.jc n) := rfl
theorem FieldsDecode.cmpgr (n : Byte) : FieldsDecode.Statement (.cmpgr n) := rfl
theorem FieldsDecode.cmple (n : Byte) : FieldsDecode.Statement (.cmple n) := rfl
theorem FieldsDecode.neg (n : Byte) : FieldsDecode.Statement (.neg n) := rfl
theorem FieldsDecode.and (n : Byte) : FieldsDecode.Statement (.and n) := rfl
theorem FieldsDecode.pout (n : Byte) : FieldsDecode.Statement (.pout n) := rfl

/-- The checks of a pair of numbers, as propositions (30_encoding.md R50, R55). -/
theorem rawInstr_wellFormed_iff (r : RawInstr) :
    r.wellFormed = true ↔ (r.opcode ≤ 15 ∨ r.opcode = 18) ∧ r.operand ≤ 255 := by
  simp only [RawInstr.wellFormed, RawInstr.opcodeNamed, RawInstr.operandFits, Bool.and_eq_true,
    Bool.or_eq_true, decide_eq_true_eq]

/-- A pair whose operand is a byte is well formed as soon as its opcode is named. -/
theorem rawInstr_wellFormed_of_opcode {op : Nat} (n : Byte) (h : op ≤ 15 ∨ op = 18) :
    (RawInstr.mk op n.toNat).wellFormed = true :=
  (rawInstr_wellFormed_iff _).2 ⟨h, Nat.le_of_lt_succ n.isLt⟩

/-- The instruction's pair of numbers is well formed (10_state.md R16). -/
def RawIsWellFormed.Statement (i : Instr) : Prop := i.raw.wellFormed = true

theorem RawIsWellFormed.data (n : Byte) : RawIsWellFormed.Statement (.data n) :=
  rawInstr_wellFormed_of_opcode (op := 0) n (by decide)
theorem RawIsWellFormed.hlt (n : Byte) : RawIsWellFormed.Statement (.hlt n) :=
  rawInstr_wellFormed_of_opcode (op := 1) n (by decide)
theorem RawIsWellFormed.print (n : Byte) : RawIsWellFormed.Statement (.print n) :=
  rawInstr_wellFormed_of_opcode (op := 2) n (by decide)
theorem RawIsWellFormed.sleep (n : Byte) : RawIsWellFormed.Statement (.sleep n) :=
  rawInstr_wellFormed_of_opcode (op := 3) n (by decide)
theorem RawIsWellFormed.ldc (n : Byte) : RawIsWellFormed.Statement (.ldc n) :=
  rawInstr_wellFormed_of_opcode (op := 4) n (by decide)
theorem RawIsWellFormed.lda (n : Byte) : RawIsWellFormed.Statement (.lda n) :=
  rawInstr_wellFormed_of_opcode (op := 5) n (by decide)
theorem RawIsWellFormed.sta (n : Byte) : RawIsWellFormed.Statement (.sta n) :=
  rawInstr_wellFormed_of_opcode (op := 6) n (by decide)
theorem RawIsWellFormed.add (n : Byte) : RawIsWellFormed.Statement (.add n) :=
  rawInstr_wellFormed_of_opcode (op := 7) n (by decide)
theorem RawIsWellFormed.sub (n : Byte) : RawIsWellFormed.Statement (.sub n) :=
  rawInstr_wellFormed_of_opcode (op := 8) n (by decide)
theorem RawIsWellFormed.jmp (n : Byte) : RawIsWellFormed.Statement (.jmp n) :=
  rawInstr_wellFormed_of_opcode (op := 9) n (by decide)
theorem RawIsWellFormed.cmpe (n : Byte) : RawIsWellFormed.Statement (.cmpe n) :=
  rawInstr_wellFormed_of_opcode (op := 10) n (by decide)
theorem RawIsWellFormed.jc (n : Byte) : RawIsWellFormed.Statement (.jc n) :=
  rawInstr_wellFormed_of_opcode (op := 11) n (by decide)
theorem RawIsWellFormed.cmpgr (n : Byte) : RawIsWellFormed.Statement (.cmpgr n) :=
  rawInstr_wellFormed_of_opcode (op := 12) n (by decide)
theorem RawIsWellFormed.cmple (n : Byte) : RawIsWellFormed.Statement (.cmple n) :=
  rawInstr_wellFormed_of_opcode (op := 13) n (by decide)
theorem RawIsWellFormed.neg (n : Byte) : RawIsWellFormed.Statement (.neg n) :=
  rawInstr_wellFormed_of_opcode (op := 14) n (by decide)
theorem RawIsWellFormed.and (n : Byte) : RawIsWellFormed.Statement (.and n) :=
  rawInstr_wellFormed_of_opcode (op := 15) n (by decide)
theorem RawIsWellFormed.pout (n : Byte) : RawIsWellFormed.Statement (.pout n) :=
  rawInstr_wellFormed_of_opcode (op := 18) n (by decide)

end Sys2Proof.Laws
end

