-- ==== Sys2Proof/Tests/Slice0.lean ====
section
/-! SUPPORT. The model's own tests, each on one small state and with an expected result taken from
95_test_vectors.md (its vector ids stand in the comments), and a witness for the hypotheses of every
statement that has some. -/

namespace Sys2Proof.Tests

open Sys2Proof.Machine

/-- The next state, where there is one. -/
def after : Result → Option State
  | .next s => some s
  | _ => none

/-- A running machine with the given cells, everything else zero. -/
def at_ (pc : Addr) (acc : Byte) (cond : Bool) (cells : List (Addr × CellWord)) : State :=
  { acc := acc, pc := pc, cond := cond, run := .running,
    mem := cells.foldl (fun m c => m.writeCell c.1 c.2) [], out := [] }

/-- `acc`, `pc` and `cond` after one step. -/
def regs (s : State) : Option (Byte × Addr × Bool) := (after (step s)).map fun t => (t.acc, t.pc, t.cond)

/-- `run` and `pc` after one step. -/
def ends (s : State) : Option (RunState × Addr) := (after (step s)).map fun t => (t.run, t.pc)

/-- One cell after one step. -/
def cell (s : State) (a : Addr) : Option CellWord := (after (step s)).map fun t => t.mem.readCell a

/-! ### Well-formedness: each check refuses an ill-formed term -/

theorem test_raw_ok : (RawInstr.mk 18 255).wellFormed = true := by decide
theorem test_raw_reserved_opcodes :
    (RawInstr.mk 16 0).wellFormed = false ∧ (RawInstr.mk 17 0).wellFormed = false := by decide
theorem test_raw_unmapped_opcode : (RawInstr.mk 19 0).opcodeNamed = false := by decide
theorem test_raw_operand_too_large :
    (RawInstr.mk 4 256).operandFits = false ∧ (RawInstr.mk 4 256).wellFormed = false := by decide
theorem test_address_too_large :
    (Instr.lda 128).wellFormed = false ∧ (Instr.lda 127).wellFormed = true := by decide
theorem test_literal_is_no_address : (Instr.ldc 200).wellFormed = true := by decide
theorem test_memory_forms_refused :
    Memory.wf [(2, 1), (1, 1)] = false ∧ Memory.wf [(2, 0)] = false ∧ Memory.wf [(256, 1)] = false ∧
      Memory.wf [(1, 1), (1, 2)] = false := by decide

/-! ### Decoding: one word per row, from the binary column of 95_test_vectors.md section 3.1 -/

theorem test_decode_data : decodeTableWord 16 0b0000000000101010 = some (.data 42) := by decide
theorem test_decode_hlt : decodeTableWord 16 0b0000000100000000 = some (.hlt 0) := by decide
theorem test_decode_print : decodeTableWord 16 0b0000001000000000 = some (.print 0) := by decide
theorem test_decode_sleep : decodeTableWord 16 0b0000001101100100 = some (.sleep 100) := by decide
theorem test_decode_ldc : decodeTableWord 16 0b0000010000001010 = some (.ldc 10) := by decide
theorem test_decode_lda : decodeTableWord 16 0b0000010100011110 = some (.lda 30) := by decide
theorem test_decode_sta : decodeTableWord 16 0b0000011000011111 = some (.sta 31) := by decide
theorem test_decode_add : decodeTableWord 16 0b0000011100011110 = some (.add 30) := by decide
theorem test_decode_sub : decodeTableWord 16 0b0000100000100000 = some (.sub 32) := by decide
theorem test_decode_jmp : decodeTableWord 16 0b0000100101111101 = some (.jmp 125) := by decide
theorem test_decode_cmpe : decodeTableWord 16 0b0000101000010100 = some (.cmpe 20) := by decide
theorem test_decode_jc : decodeTableWord 16 0b0000101100001010 = some (.jc 10) := by decide
theorem test_decode_cmpgr : decodeTableWord 16 0b0000110000100001 = some (.cmpgr 33) := by decide
theorem test_decode_cmple : decodeTableWord 16 0b0000110100010101 = some (.cmple 21) := by decide
theorem test_decode_neg : decodeTableWord 16 0b0000111000000000 = some (.neg 0) := by decide
theorem test_decode_and : decodeTableWord 16 0b0000111100010100 = some (.and 20) := by decide
theorem test_decode_pout : decodeTableWord 16 0b0001001000000000 = some (.pout 0) := by decide
theorem test_decode_unnamed :
    decodeTableWord 16 0x1000 = none ∧ decodeTableWord 16 0x1109 = none ∧
      decodeTableWord 16 0x1300 = none ∧ decodeTableWord 16 0xFFFF = none := by decide
theorem test_encode_bytes : encode (.jc 10) = [0x0B, 0x0A] := by decide

/-! ### One step of each instruction -/

-- V2, V3
theorem test_data : regs (at_ 20 9 true [(20, 0x00FF)]) = some (9, 21, true) := by decide
theorem test_data_wraps : regs (at_ 127 1 false []) = some (1, 0, false) := by decide
-- V5, V6
theorem test_hlt : ends (at_ 3 7 false [(3, 0x0105)]) = some (.halted, 4) := by decide
theorem test_hlt_wraps : ends (at_ 127 0 false [(127, 0x0100)]) = some (.halted, 0) := by decide
-- V8, V12
theorem test_print :
    (after (step (at_ 10 10 true [(10, 0x0200)]))).map (·.out) = some [⟨.print, 10⟩] := by decide
theorem test_pout :
    (after (step (at_ 13 15 false [(13, 0x1200)]))).map (·.out) = some [⟨.pout, 15⟩] := by decide
-- V10
theorem test_sleep : regs (at_ 5 3 false [(5, 0x03FF)]) = some (3, 6, false) := by decide
-- V18
theorem test_ldc : regs (at_ 0 77 false [(0, 0x04C8)]) = some (200, 1, false) := by decide
-- V22, V25
theorem test_lda_of_code : regs (at_ 4 1 false [(4, 0x0532), (50, 0x0909)]) = some (9, 5, false) := by
  decide
theorem test_lda_128 :
    ends (at_ 0 1 false [(0, 0x0580)]) = some (.faulted ⟨.illegalAddress, .none, 0⟩, 1) := by decide
-- V28, V32
theorem test_sta_over_code : cell (at_ 6 15 false [(6, 0x061F), (31, 0x0B04)]) 31 = some 0x000F := by
  decide
theorem test_sta_wrapped : cell (at_ 127 255 false [(0, 0x097D), (127, 0x0600)]) 0 = some 0x00FF := by
  decide
-- V34, V35 (the corrected boundary, 90_conflicts.md C12)
theorem test_add_255 : regs (at_ 1 200 false [(1, 0x070A), (10, 0x0037)]) = some (255, 2, false) := by
  decide
theorem test_add_256 :
    ends (at_ 1 200 false [(1, 0x070A), (10, 0x0038)]) =
      some (.faulted ⟨.overflowUnderflow, .over, 1⟩, 2) := by decide
-- V45, V44
theorem test_sub_0 : regs (at_ 1 5 false [(1, 0x080A), (10, 0x0005)]) = some (0, 2, false) := by decide
theorem test_sub_below_0 :
    ends (at_ 1 5 false [(1, 0x080A), (10, 0x0006)]) =
      some (.faulted ⟨.overflowUnderflow, .under, 1⟩, 2) := by decide
-- V54, V58
theorem test_neg_127 : regs (at_ 2 127 true [(2, 0x0E00)]) = some (129, 3, true) := by decide
theorem test_neg_operand_ignored : regs (at_ 2 1 false [(2, 0x0EC8)]) = some (255, 3, false) := by decide
-- V59, V63
theorem test_and : regs (at_ 1 202 false [(1, 0x0F28), (40, 0x00F0)]) = some (192, 2, false) := by decide
theorem test_and_129 :
    ends (at_ 1 170 false [(1, 0x0F81)]) = some (.faulted ⟨.illegalAddress, .none, 1⟩, 2) := by decide
-- V67, V69
theorem test_jmp : regs (at_ 0 3 false [(0, 0x097F)]) = some (3, 127, false) := by decide
theorem test_jmp_200 :
    ends (at_ 0 3 false [(0, 0x09C8)]) = some (.faulted ⟨.illegalAddress, .none, 0⟩, 1) := by decide
-- V71, V72
theorem test_cmpe_clears : regs (at_ 1 11 true [(1, 0x0A14), (20, 0x000A)]) = some (11, 2, false) := by
  decide
theorem test_cmpe_unwritten : regs (at_ 1 0 false [(1, 0x0A14)]) = some (0, 2, true) := by decide
-- V74, V76
theorem test_jc_taken : regs (at_ 2 0 true [(2, 0x0B0A)]) = some (0, 10, true) := by decide
theorem test_jc_200_untaken : ends (at_ 2 0 false [(2, 0x0BC8)]) = some (.running, 3) := by decide
-- V82, V80
theorem test_cmpgr_unsigned : regs (at_ 10 128 false [(10, 0x0C21), (33, 0x007F)]) = some (128, 11, true) := by
  decide
theorem test_cmpgr_equal : regs (at_ 10 0 true [(10, 0x0C21)]) = some (0, 11, false) := by decide
-- V86, V88
theorem test_cmple_strict : regs (at_ 3 6 true [(3, 0x0D32), (50, 0x0006)]) = some (6, 4, false) := by
  decide
theorem test_cmple_unsigned : regs (at_ 3 0 false [(3, 0x0D32), (50, 0x00FF)]) = some (0, 4, true) := by
  decide
-- V17
theorem test_illegal_opcode_at_127 :
    ends (at_ 127 1 false [(127, 0xFFFF)]) = some (.faulted ⟨.illegalOpcode, .none, 127⟩, 0) := by decide
theorem test_fetch_word_runs :
    (after (step (State.reset.withFetchWord 16 0x04C8))).map (·.acc) = some 200 := by decide

/-! ### The loader, the dump, the output text -/

/-- The load address and one cell after a load. -/
def loaded (text : List Char) (a : Addr) : Option (Nat × CellWord) :=
  (load text).toOption.map fun l => (l.la, l.mem.readCell a)

/-- The fault of a load. -/
def loadFault (text : List Char) : Option (FaultKind × LoadToken) :=
  match load text with
  | .error e => some (e.kind, e.token)
  | .ok _ => none

-- L1, L3, L6, L2
theorem test_load_address_200 : loadFault ['@', '2', '0', '0'] = some (.illegalAddress, .literal 200) := by
  decide
theorem test_load_operand_999 :
    loadFault ['l', 'd', 'c', ' ', '9', '9', '9'] = some (.invalidOperand, .literal 999) := by decide
theorem test_load_no_digit :
    loadFault ['l', 'd', 'c', ' ', 'X'] = some (.inputMistake, .unexpected (some 'X')) := by decide
theorem test_load_unknown : loadFault ['f', 'o', 'o'] = some (.illegalOpcode, .mnemonic ['f', 'o', 'o']) := by
  decide
-- L9, L10, L12, L40
theorem test_load_tab : loaded ['l', 'd', 'c', '\t', '9'] 0 = some (1, 0x0400) := by decide
theorem test_load_ignored_operand : loaded ['H', 'l', 'T', ' ', '5'] 0 = some (1, 0x0105) := by decide
theorem test_load_past_127 :
    loadFault ['@', '1', '2', '7', '\n', 'h', 'l', 't', '\n', 'h', 'l', 't'] =
      some (.illegalAddress, .noRoom) := by decide
theorem test_load_two_directives :
    loaded ['@', '1', '0', '@', '2', '0', ' ', 'h', 'l', 't'] 20 = some (21, 0x0100) := by decide
-- section 1.9
theorem test_render :
    renderOut [⟨.print, 10⟩, ⟨.pout, 7⟩] =
      ['0', '1', '0', '\n', 'o', 'u', 't', '(', '0', '0', '7', ')', ';', '\n'] := by decide
-- section 1.8
theorem test_dump :
    dump (at_ 0 0 false [(50, 0x0100), (1, 0x0200), (0, 0x0401)]).mem =
      [⟨0, 4, 1⟩, ⟨1, 2, 0⟩, ⟨50, 1, 0⟩] := by decide

/-! ### Witnesses: the hypotheses of the statements can be met -/

/-- A running machine whose next cell is `w`, with 200 in the accumulator and 55 and 56 in two cells. -/
def sample (w : CellWord) : State := at_ 1 200 true [(1, w), (10, 0x0037), (11, 0x0038), (127, 0x0BC9)]

/-- A faulted machine. -/
def sampleFaulted : State := (sample 0x0780).raise .illegalAddress .none

/-- The address operands at the two ends of each range: 0 and 127 pass, 128 and 255 do not. -/
theorem witness_address_bounds :
    checkAddr 0 = some 0 ∧ checkAddr 127 = some 127 ∧ 127 < (128 : Byte).toNat ∧
      127 < (255 : Byte).toNat := by decide
theorem witness_AndIsBitwise : checkAddr 127 = some 127 ∧ 127 < (128 : Byte).toNat := by decide
theorem witness_JmpGoesToCheckedTarget : checkAddr 127 = some 127 ∧ 127 < (128 : Byte).toNat := by decide
theorem witness_CmpeWritesEquality : checkAddr 127 = some 127 ∧ 127 < (128 : Byte).toNat := by decide
theorem witness_CmpgrWritesUnsignedGreater : checkAddr 127 = some 127 ∧ 127 < (128 : Byte).toNat := by decide
theorem witness_CmpleWritesUnsignedLess : checkAddr 127 = some 127 ∧ 127 < (128 : Byte).toNat := by decide
theorem witness_DataIsANoOp : (sample 0).mem.wf = true := by decide
theorem witness_HltIsTheOnlyWayToHalt :
    ((sample 0).setRun .halted).run = .halted ∧
      ∃ t, step (sample 0x0100) = .next t ∧ t.run = .halted := ⟨rfl, _, rfl, rfl⟩
theorem witness_LdaLoadsOperandField : checkAddr 127 = some 127 ∧ 127 < (128 : Byte).toNat := by decide
theorem witness_StaStoresDataWord :
    checkAddr 127 = some 127 ∧ (sample 0x067F).mem.wf = true ∧ 255 ≠ opcodeKey 10 ∧
      255 ≠ operandKey 10 ∧ 127 < (128 : Byte).toNat ∧
      ∃ t, exec (.sta 127) (sample 0x067F) = .next t :=
  ⟨by decide, by decide, by decide, by decide, by decide, _, rfl⟩
theorem witness_AddFaultsInsteadOfWrapping :
    checkAddr 10 = some 10 ∧
      (255 : Byte).toNat = (sample 0).acc.toNat + (operandOf ((sample 0).mem.readCell 10)).toNat ∧
      255 < (sample 0).acc.toNat + (operandOf ((sample 0).mem.readCell 11)).toNat ∧
      127 < (128 : Byte).toNat := by decide
theorem witness_SubFaultsInsteadOfWrapping :
    checkAddr 127 = some 127 ∧
      (145 : Byte).toNat + (operandOf ((sample 0).mem.readCell 10)).toNat = (sample 0).acc.toNat ∧
      (sample 0).acc.toNat < (operandOf ((sample 0).mem.readCell 127)).toNat ∧
      127 < (128 : Byte).toNat := by decide
theorem witness_JcJumpsOnTrueOnly :
    (sample 0).cond = true ∧ ((sample 0).setCond false).cond = false ∧ checkAddr 127 = some 127 ∧
      127 < (128 : Byte).toNat := by decide
theorem witness_DecodeRejectsExactlyUnnamedOpcodes :
    decodeCell 0x1000 = .error (.illegalOpcode (opcodeOf 0x1000)) := by decide
theorem witness_StepRunsTheDecodedInstruction :
    (sample 0x070A).run = .running ∧ decode (sample 0x070A).fetchBytes = .ok (.add 10, []) := by decide
theorem witness_UnnamedOpcodeRaisesIllegalOpcode :
    (sample 0x1000).run = .running ∧ opcodeOf (sample 0x1000).fetchCell = 16 ∧
      opcodeOf (sample 0x1100).fetchCell = 17 ∧ 18 < (opcodeOf (sample 0x1300).fetchCell).toNat ∧
      lookup (takeAlpha ['f', 'o', 'o']).1 = none := by decide
theorem witness_RunningMachineAlwaysSteps : (sample 0).run = .running := rfl
theorem witness_StoppedMachineTakesNoStep :
    State.powerOn.run = .idle ∧ ((sample 0).setRun .halted).run = .halted ∧
      sampleFaulted.run = .faulted ⟨.illegalAddress, .none, 1⟩ := by decide
theorem witness_PlacedWordRunsNext :
    State.reset.mem.wf = true ∧ decodeCell 0x070A = .ok (.add 10) := by decide
theorem witness_FaultingStepHasNoOtherEffect :
    ∃ t r, step (sample 0x070B) = .next t ∧ t.run = .faulted r :=
  ⟨_, _, rfl, rfl⟩
theorem witness_InstructionFaultsExactlyWhen :
    (sample 0).run = .running ∧ (∃ t, exec (.add 11) (sample 0) = .next t) ∧
      badAddress (.jmp 128) (sample 0) ∧ badRange (.add 11) (sample 0) .over ∧
      badRange (.sub 127) (sample 0) .under :=
  ⟨rfl, ⟨_, rfl⟩, ⟨by decide, by simp⟩, ⟨11, 11, by decide, .inl ⟨rfl, rfl, by decide⟩⟩,
    127, 127, by decide, .inr ⟨rfl, rfl, by decide⟩⟩
theorem witness_DormantKindsAreNeverRaised :
    (∃ t r, step (sample 0x0780) = .next t ∧ t.run = .faulted r) ∧
      ∃ e, load ['f', 'o', 'o'] = .error e :=
  ⟨⟨_, _, rfl, rfl⟩, _, rfl⟩
theorem witness_JcParameterMattersOnlyUntakenAbove127 :
    (127 : Byte).toNat ≤ 127 ∧ (sample 0).cond = true ∧ 127 < (128 : Byte).toNat ∧
      ((sample 0).setCond false).cond = false := by decide
theorem witness_AccWrittenOnlyByItsSix :
    ∃ t, exec (.ldc 1) (sample 0) = .next t ∧ t.acc ≠ (sample 0).acc :=
  ⟨_, rfl, by decide⟩
/-- `cond` is true in the sample and cell 127 makes `cmpe` write false, so the old value matters. -/
theorem witness_CondWrittenByComparisonsReadByJc :
    (∃ t, exec (.cmpe 127) (sample 0) = .next t ∧ t.cond ≠ (sample 0).cond) ∧
      (127 : Byte).toNat ≤ 127 ∧ (∃ t, exec (.cmpe 128) (sample 0) = .next t) ∧
      ¬ (128 : Byte).toNat ≤ 127 ∧ (∃ t, exec (.sta 127) (sample 0) = .next t) ∧
      ∀ n, Instr.sta 127 ≠ .jc n ∧ Instr.sta 127 ≠ .cmpe n ∧ Instr.sta 127 ≠ .cmpgr n ∧
        Instr.sta 127 ≠ .cmple n :=
  ⟨⟨_, rfl, by decide⟩, by decide, ⟨_, rfl⟩, by decide, ⟨_, rfl⟩, by simp⟩
theorem witness_OutputIsAppendOnlyAndWriteOnly :
    (∃ t, exec (.print 0) (sample 0) = .next t) ∧ (∃ t, exec (.pout 0) (sample 0) = .next t) ∧
      (∃ t, exec (.add 11) (sample 0) = .next t) ∧
      (∀ n, Instr.add 11 ≠ .print n ∧ Instr.add 11 ≠ .pout n) ∧
      ∃ t, step (sample 0x0200) = .next t :=
  ⟨⟨_, rfl⟩, ⟨_, rfl⟩, ⟨_, rfl⟩, by simp, _, rfl⟩
theorem witness_PcAdvancesByOneCell :
    (∃ t, exec (.data 0) (sample 0) = .next t) ∧ (∀ n, Instr.data 0 ≠ .jmp n) ∧
      ∀ n, Instr.data 0 ≠ .jc n :=
  ⟨⟨_, rfl⟩, by simp, by simp⟩
theorem witness_StoreReplacesOneCellAndOnlyStaStores :
    (sample 0).mem.wf = true ∧ 0 ≠ opcodeKey 127 ∧ 0 ≠ operandKey 127 ∧
      (∃ t, exec (.sta 128) (sample 0) = .next t) ∧ 127 < (128 : Byte).toNat ∧
      (∃ t, exec (.add 10) (sample 0) = .next t) ∧ ∀ n, Instr.add 10 ≠ .sta n :=
  ⟨by decide, by decide, by decide, ⟨_, rfl⟩, by decide, ⟨_, rfl⟩, fun _ h => by cases h⟩
/-- Two different memories with the same operand fields. -/
theorem witness_OpcodeFieldsAreNotReadAsData :
    (∀ a, operandOf (Memory.readCell [(0, 4)] a) = operandOf (State.reset.mem.readCell a)) ∧
      ∃ t, exec (.lda 0) State.reset = .next t :=
  ⟨by decide, _, rfl⟩
theorem witness_StoreThenLoadRoundTrip :
    (sample 0).mem.wf = true ∧ (Instr.jc 128).addressOperand = some 128 ∧ 127 < (128 : Byte).toNat ∧
      (sample 0).cond = true := by decide
theorem witness_CanonicalMemoriesAreExtensional :
    (sample 0).mem.wf = true ∧
      ∀ a, (sample 0).mem.readCell a = ((sample 0).writeData 5 0).mem.readCell a := by decide
theorem witness_NoProgramCreatesAnExecutableCell :
    (sample 0x067F).mem.wf = true ∧ ∃ t, step (sample 0x067F) = .next t :=
  ⟨by decide, _, rfl⟩
theorem witness_StoreIsSeenByTheNextFetch :
    (sample 0x0602).run = .running ∧ (sample 0x0602).mem.wf = true ∧
      decodeCell (sample 0x0602).fetchCell = .ok (.sta 2) ∧
      checkAddr 2 = some ((sample 0x0602).pc + 1) := by decide
theorem witness_InvariantIsKeptByEveryStep :
    (sample 0x0780).Inv ∧ ∃ t, step (sample 0x0780) = .next t :=
  ⟨⟨by decide, fun _ h => by cases h⟩, _, rfl⟩
theorem witness_NamedCellsAreKeptByEveryStep :
    (sample 0x070B).mem.wf = true ∧ (sample 0x070B).AllNamed ∧
      ∃ t, step (sample 0x070B) = .next t ∧ ∃ r, t.run = .faulted r :=
  ⟨by decide, by unfold State.AllNamed; decide, _, rfl, _, rfl⟩
/-- The invariant with a fault record, and an input that a faulted machine accepts. -/
theorem witness_HostInputsKeepTheInvariant :
    sampleFaulted.Inv ∧ ∃ t, hostStep .runReset sampleFaulted = .next t :=
  ⟨⟨by decide, fun _ h => by cases h; exact ⟨rfl, rfl⟩⟩, _, rfl⟩
/-- A running machine, an idle one for the load, and an input that is accepted. -/
theorem witness_HostActsOnlyOutsideARun :
    (sample 0).run = .running ∧ State.powerOn.run = .idle ∧
      ∃ t, hostStep (.load 127 0x0100) State.powerOn = .next t :=
  ⟨rfl, rfl, _, rfl⟩
theorem witness_PowerOnZeroesEverything : sampleFaulted.run ≠ .running := by decide
theorem witness_RunResetKeepsMemoryOnly :
    sampleFaulted.run ≠ .running ∧ (sample 0).run = .running := by decide
theorem witness_LoadIsAcceptedOnlyWhileIdle :
    State.powerOn.run = .idle ∧ State.powerOn.mem.wf = true ∧ (0 : Addr) ≠ 127 ∧
      (sample 0).run ≠ .idle := by decide
theorem witness_ExitCodes :
    (∃ e, load ['f', 'o', 'o'] = .error e) ∧ ∃ l, load ['h', 'l', 't'] = .ok l :=
  ⟨⟨_, rfl⟩, _, rfl⟩
theorem witness_LookupIsCaseInsensitiveExactMatch :
    lookup ['P', 'o', 'U', 't'] = some 18 ∧ (toLower 'A', toLower 'Z') = ('a', 'z') ∧
      (toLower '@', toLower '[', toLower 'z') = ('@', '[', 'z') ∧ lookup (takeAlpha ['1']).1 = none := by
  decide
theorem witness_OperandIsDecimalUpTo255 :
    ['2', '5', '5'] ≠ [] ∧ ['2', '5', '5'].all isDigit = true ∧ digitsValue ['2', '5', '5'] = 255 ∧
      digitsValue ['2', '5', '6'] = 256 ∧ isDigit 'x' = false ∧ ∀ rest, ['\n'] ≠ ' ' :: rest :=
  ⟨by decide, by decide, by decide, by decide, by decide, fun _ h => by simp at h⟩
theorem witness_DirectiveSetsTheLoadAddress :
    ['1', '2', '7'].all isDigit = true ∧ digitsValue ['1', '2', '7'] = 127 ∧
      digitsValue ['1', '2', '8'] = 128 ∧ isDigit ' ' = false := by decide
theorem witness_LoaderWritesWholeCellAndChecksThere :
    (Loader.mk [] 127 []).la = (127 : Addr).toNat ∧ (Loader.mk [] 127 []).mem.wf = true ∧
      (0 : Addr) ≠ 127 ∧ 127 < (Loader.mk [] 128 []).la := by decide
theorem witness_SourceTextLoadsAsItsEncoding :
    (List.replicate 128 (Instr.hlt 0)).length ≤ 128 := by simp
theorem witness_LoadedMemoryHoldsInstructionsOnly : ∃ l, load ['h', 'l', 't'] = .ok l := ⟨_, rfl⟩
theorem witness_LoadFaultsAreTheLoadersFourKinds : ∃ e, load ['@', 'x'] = .error e := ⟨_, rfl⟩
/-- The source text `lda 200`: it loads, and its first step faults (program P7). -/
theorem witness_BootedMachineNeverMeetsIllegalOpcode :
    ∃ s t r, boot ['l', 'd', 'a', ' ', '2', '0', '0'] .execute = .started s ∧
      Host.Core.run Sys2Proof.core 1 s = .next t ∧ t.run = .faulted r :=
  ⟨_, _, _, rfl, rfl, rfl⟩

end Sys2Proof.Tests
end

namespace Sys2Proof.Machine

/-! ## Memory: stores and loads (20_memory.md)

The laws of `MemWrite`, the frame of memory under every instruction, and the one way an address operand
is used: through the address decoder. -/

/-! ### A data write -/

/-- R33: the cell becomes `(0, v)`, whatever it held. -/
theorem Memory.readCell_writeData_same {m : Memory} {a : Addr} {v : Byte} (hm : m.wf = true) :
    (m.writeData a v).readCell a = packCell 0 v :=
  Memory.readCell_writeCell_same hm

/-- R33: both bytes of every other cell are kept. -/
theorem Memory.readByte_writeData_ne (m : Memory) {a : Addr} {v : Byte} {k : Nat}
    (hop : k ≠ opcodeKey a) (hn : k ≠ operandKey a) : (m.writeData a v).readByte k = m.readByte k :=
  Memory.readByte_writeCell_ne m hop hn

theorem Memory.readData_writeData_same {m : Memory} {a : Addr} {v : Byte} (hm : m.wf = true) :
    (m.writeData a v).readData a = v := by
  rw [Memory.readData_eq, Memory.readCell_writeData_same hm, operandOf_packCell]

/-! ### What an instruction does to memory -/

/-- `sta` is the only instruction with an effect on memory; no fault has one. -/
theorem Effect.mem_eq {s t : State} {i : Instr} (h : Effect s i t) (hi : ∀ n, i ≠ .sta n) :
    t.mem = s.mem := by
  cases h with
  | sta n => exact absurd rfl (hi n)
  | _ => rfl

theorem exec_mem_eq {i : Instr} {s t : State} (h : exec i s = .next t) (hi : ∀ n, i ≠ .sta n) :
    t.mem = s.mem :=
  (exec_effect h).mem_eq hi

/-! ### An address operand above 127 -/

/-- An instruction that uses its operand as an address passes it to the address decoder first; `jc` does
so when the jump is taken (R31). -/
theorem exec_eq_withAddress {i : Instr} {n : Byte} {s : State} (hi : i.addressOperand = some n)
    (hc : (∃ m, i = .jc m) → s.cond = true) : ∃ k, exec i s = withAddress n s k := by
  cases i with
  | jc m =>
    cases hi
    exact ⟨_, exec_jc_true (hc ⟨n, rfl⟩) n⟩
  | lda m | sta m | add m | sub m | and m | jmp m | cmpe m | cmpgr m | cmple m =>
    cases hi
    exact ⟨_, rfl⟩
  | data m | hlt m | print m | sleep m | ldc m | neg m | pout m => cases hi

/-- So above 127 it raises IllegalAddress and has no other effect (R31, R33). -/
theorem exec_illegalAddress {i : Instr} {n : Byte} {s : State} (hi : i.addressOperand = some n)
    (hn : 127 < n.toNat) (hc : (∃ m, i = .jc m) → s.cond = true) :
    exec i s = .next (s.raise .illegalAddress .none) := by
  obtain ⟨k, hk⟩ := exec_eq_withAddress hi hc
  rw [hk, withAddress_none hn]

/-- Raising a fault answers FAULTED with the kind and the sub-cause it was raised with. -/
theorem faultsWith_raise {s : State} {k : FaultKind} {sub : SubCause} {p : State → Prop}
    (hp : p (s.raise k sub)) : faultsWith (.next (s.raise k sub)) k sub p :=
  ⟨_, _, rfl, rfl, rfl, rfl, hp⟩

/-! ### The obligations -/

/-- Settles O35: a data write by the laws of `writeData`, a faulting `sta` because it only raises, and
every other instruction by the frame of memory. -/
theorem storeReplacesOneCellAndOnlyStaStores : Obligations.StoreReplacesOneCellAndOnlyStaStores := by
  refine ⟨fun m a v => ⟨Memory.readCell_writeData_same, fun k => Memory.readByte_writeData_ne m⟩, ?_, ?_⟩
  · intro n s t h hn
    rw [exec_illegalAddress (i := .sta n) rfl hn (by simp)] at h
    cases h
    exact s.raise_mem _ _
  · intro i s t h hi k
    rw [exec_mem_eq h hi]

/-- Settles O37: the round trip by the laws of `writeData`, the illegal addresses because every address
operand passes the address decoder. -/
theorem storeThenLoadRoundTrip : Obligations.StoreThenLoadRoundTrip := by
  constructor
  · intro s a v hm
    exact ⟨Memory.readData_writeData_same hm, Memory.readCell_writeData_same hm⟩
  · intro i n s hi hn hc
    rw [exec_illegalAddress hi hn hc]
    exact faultsWith_raise trivial

end Sys2Proof.Machine

namespace Sys2Proof.Machine

/-! ## System and output: `data` and `hlt` (40_system_io.md)

The decoder on a cell built from its two fields, and the one way each instruction touches the run state. -/

/-! ### Decoding a packed cell -/

/-- The decoder sees exactly the two fields a cell was packed from (R50). -/
@[simp] theorem decodeCell_packCell (op n : Byte) : decodeCell (packCell op n) = decodeFields op n := by
  rw [decodeCell, opcodeOf_packCell, operandOf_packCell]

/-- R80: opcode 0 is `data`, whatever the payload. -/
theorem decodeCell_packCell_data (n : Byte) : decodeCell (packCell 0x00 n) = .ok (.data n) :=
  (decodeCell_packCell _ n).trans (Laws.FieldsDecode.data n)

/-- R81: opcode 1 is `hlt`, whatever the operand. -/
theorem decodeCell_packCell_hlt (n : Byte) : decodeCell (packCell 0x01 n) = .ok (.hlt n) :=
  (decodeCell_packCell _ n).trans (Laws.FieldsDecode.hlt n)

/-! ### What an instruction does to the run state -/

/-- An instruction keeps the run state, or it is `hlt` and enters HALTED, or it faults (R14). -/
theorem Effect.run_cases {s t : State} {i : Instr} (h : Effect s i t) :
    t.run = s.run ∨ ((∃ n, i = .hlt n) ∧ t.run = .halted) ∨ ∃ r, t.run = .faulted r := by
  cases h with
  | hlt n => exact .inr (.inl ⟨⟨n, rfl⟩, rfl⟩)
  | addOver | subUnder | badAddress => exact .inr (.inr ⟨_, rfl⟩)
  | _ => exact .inl rfl

/-- So from RUNNING only `hlt` answers HALTED. -/
theorem Effect.eq_hlt_of_halted {s t : State} {i : Instr} (h : Effect s i t)
    (hs : s.run = .running) (ht : t.run = .halted) : ∃ n, i = .hlt n := by
  obtain hkeep | ⟨hhlt, -⟩ | ⟨r, hfault⟩ := h.run_cases
  · simp [ht, hs] at hkeep
  · exact hhlt
  · simp [ht] at hfault

/-- Only a running machine takes a step, so HALTED is terminal (R14, R81). -/
theorem step_ne_next_of_halted {s : State} (hs : s.run = .halted) (t : State) : step s ≠ .next t := by
  intro h
  obtain ⟨hrun, -⟩ := step_cases h
  simp [hs] at hrun

/-- A step into HALTED fetched a `hlt`: an unnamed opcode faults, and every other instruction keeps the
run state or faults. -/
theorem fetched_hlt_of_step_halted {s t : State} (h : step s = .next t) (ht : t.run = .halted) :
    ∃ n, decodeCell s.fetchCell = .ok (.hlt n) := by
  obtain ⟨hs, ⟨i, hi, he⟩ | ⟨-, rfl⟩⟩ := step_cases h
  · obtain ⟨n, rfl⟩ := (exec_effect he).eq_hlt_of_halted hs ht
    exact ⟨n, hi⟩
  · simp at ht

/-! ### The obligations -/

/-- Settles O2: the effect of `hlt` is its equation; the rest follows from what a step can do to the run
state. -/
theorem hltIsTheOnlyWayToHalt : Obligations.HltIsTheOnlyWayToHalt := by
  refine ⟨fun n s => ⟨decodeCell_packCell_hlt n, exec_hlt n s⟩, ?_, rfl, ?_⟩
  · exact fun s t hs => step_ne_next_of_halted hs t
  · exact fun s t => fetched_hlt_of_step_halted

/-- Settles O1: a stored cell reads back as `(0, v)`, which is the cell of `data v`. -/
theorem dataIsANoOp : Obligations.DataIsANoOp := by
  refine fun n s => ⟨decodeCell_packCell_data n, exec_data n s, fun a v hm => ?_⟩
  rw [Memory.readCell_writeData_same hm]
  exact decodeCell_packCell_data v

end Sys2Proof.Machine

namespace Sys2Proof.Machine

/-! ## Loads and stores: `ldc`, `lda` and `sta` (41_load_store.md)

What each of the three answers at a checked address, the load after the store, and the one fault an address
operand has. -/

/-! ### Decoding the packed cells -/

/-- R90: opcode 4 is `ldc`, whatever the literal. -/
theorem decodeCell_packCell_ldc (n : Byte) : decodeCell (packCell 0x04 n) = .ok (.ldc n) :=
  (decodeCell_packCell _ n).trans (Laws.FieldsDecode.ldc n)

/-- R91: opcode 5 is `lda`, whatever the operand. -/
theorem decodeCell_packCell_lda (n : Byte) : decodeCell (packCell 0x05 n) = .ok (.lda n) :=
  (decodeCell_packCell _ n).trans (Laws.FieldsDecode.lda n)

/-- R92: opcode 6 is `sta`, whatever the operand. -/
theorem decodeCell_packCell_sta (n : Byte) : decodeCell (packCell 0x06 n) = .ok (.sta n) :=
  (decodeCell_packCell _ n).trans (Laws.FieldsDecode.sta n)

/-! ### The illegal address, for every instruction -/

/-- Raising a fault keeps everything a program can compute with (R130). -/
theorem State.sameData_raise (s : State) (k : FaultKind) (sub : SubCause) : sameData s (s.raise k sub) :=
  ⟨s.raise_acc k sub, s.raise_cond k sub, s.raise_mem k sub, s.raise_out k sub⟩

/-- An address operand above 127 raises IllegalAddress, and nothing a program can compute with is written
(R31, R130). -/
theorem exec_faultsWith_illegalAddress {i : Instr} {n : Byte} {s : State}
    (hi : i.addressOperand = some n) (hn : 127 < n.toNat) (hc : (∃ m, i = .jc m) → s.cond = true) :
    faultsWith (exec i s) .illegalAddress .none (sameData s) := by
  rw [exec_illegalAddress hi hn hc]
  exact faultsWith_raise (s.sameData_raise _ _)

/-! ### At a checked address -/

/-- R91: the load reads the operand field of the cell. -/
theorem exec_lda_of_checkAddr {n : Byte} {a : Addr} (h : checkAddr n = some a) (s : State) :
    exec (.lda n) s = .next { s with pc := s.pc + 1, acc := operandOf (s.mem.readCell a) } := by
  rw [exec_lda, withData_some h, State.readData, Memory.readData_eq]
  rfl

/-- R92: the store writes one data word. -/
theorem exec_sta_of_checkAddr {n : Byte} {a : Addr} (h : checkAddr n = some a) (s : State) :
    exec (.sta n) s = .next { s with pc := s.pc + 1, mem := s.mem.writeData a s.acc } := by
  rw [exec_sta, withAddress_some h]
  rfl

/-- A load from the cell just stored to reads the stored accumulator back. -/
theorem exec_lda_of_exec_sta {n : Byte} {a : Addr} {s t : State} (ha : checkAddr n = some a)
    (hm : s.mem.wf = true) (ht : exec (.sta n) s = .next t) :
    exec (.lda n) t = .next { t with pc := t.pc + 1, acc := s.acc } := by
  rw [exec_sta_of_checkAddr ha] at ht
  cases ht
  rw [exec_lda_of_checkAddr ha, Memory.readCell_writeData_same hm, operandOf_packCell]

/-! ### The obligations -/

/-- Settles O6: the equation of `ldc`, whose operand is not an address. -/
theorem ldcLoadsLiteral : Obligations.LdcLoadsLiteral :=
  fun n s => ⟨decodeCell_packCell_ldc n, exec_ldc n s⟩

/-- Settles O7: the load at a checked address, and the fault of an address operand. -/
theorem ldaLoadsOperandField : Obligations.LdaLoadsOperandField := by
  intro n s
  refine ⟨decodeCell_packCell_lda n, fun a ha => ?_, fun hn => ?_⟩
  · exact exec_lda_of_checkAddr ha s
  · exact exec_faultsWith_illegalAddress rfl hn (by simp)

/-- Settles O8: the memory after the store is the data write of the accumulator, so the cell and the frame
follow from the laws of `writeData`, and the load reads the stored word. -/
theorem staStoresDataWord : Obligations.StaStoresDataWord := by
  intro n s
  refine ⟨decodeCell_packCell_sta n, fun a ha => ?_, fun hn => ?_⟩
  · refine ⟨s.mem.writeData a s.acc, exec_sta_of_checkAddr ha s, ?_, ?_, ?_⟩
    · exact Memory.readCell_writeData_same
    · exact fun k => Memory.readByte_writeData_ne s.mem
    · exact fun hm t => exec_lda_of_exec_sta ha hm
  · exact exec_faultsWith_illegalAddress rfl hn (by simp)

end Sys2Proof.Machine

namespace Sys2Proof.Machine

/-! ## Logic: `and` (42_arithmetic_logic.md)

The bits of the result, and what the instruction answers at a checked address. -/

/-- R104: opcode 15 is `and`, whatever the operand. -/
theorem decodeCell_packCell_and (n : Byte) : decodeCell (packCell 0x0F n) = .ok (.and n) :=
  (decodeCell_packCell _ n).trans (Laws.FieldsDecode.and n)

/-- R104: no bit of the result depends on a bit in another position. -/
@[simp] theorem getLsbD_aluAnd (acc d : Byte) (j : Nat) :
    (aluAnd acc d).getLsbD j = (acc.getLsbD j && d.getLsbD j) :=
  BitVec.getLsbD_and

/-- R104: the accumulator is combined with the operand field of the cell, and only it and `pc` are
written. -/
theorem exec_and_of_checkAddr {n : Byte} {a : Addr} (h : checkAddr n = some a) (s : State) :
    exec (.and n) s =
      .next { s with pc := s.pc + 1, acc := aluAnd s.acc (operandOf (s.mem.readCell a)) } := by
  rw [exec_and, withData_some h, State.readData, Memory.readData_eq]
  rfl

/-! ### The obligation -/

/-- Settles O12: the byte written is `aluAnd`, whose bits are known; an address operand above 127 faults as
for every instruction. -/
theorem andIsBitwise : Obligations.AndIsBitwise := by
  intro n s
  refine ⟨decodeCell_packCell_and n, fun a ha => ?_, fun hn => ?_⟩
  · exact ⟨_, exec_and_of_checkAddr ha s, fun j _ => getLsbD_aluAnd _ _ j⟩
  · exact exec_faultsWith_illegalAddress rfl hn (by simp)

end Sys2Proof.Machine

namespace Sys2Proof.Machine

/-! ## Compare and branch: `jmp`, `cmpe`, `cmpgr` and `cmple` (43_compare_branch.md)

The three outcomes as tests on bytes, the one way a comparison writes its outcome, and the checked jump. -/

/-! ### Decoding the packed cells -/

/-- R111: opcode 9 is `jmp`, whatever the operand. -/
theorem decodeCell_packCell_jmp (n : Byte) : decodeCell (packCell 0x09 n) = .ok (.jmp n) :=
  (decodeCell_packCell _ n).trans (Laws.FieldsDecode.jmp n)

/-- R112: opcode 10 is `cmpe`, whatever the operand. -/
theorem decodeCell_packCell_cmpe (n : Byte) : decodeCell (packCell 0x0A n) = .ok (.cmpe n) :=
  (decodeCell_packCell _ n).trans (Laws.FieldsDecode.cmpe n)

/-- R114: opcode 12 is `cmpgr`, whatever the operand. -/
theorem decodeCell_packCell_cmpgr (n : Byte) : decodeCell (packCell 0x0C n) = .ok (.cmpgr n) :=
  (decodeCell_packCell _ n).trans (Laws.FieldsDecode.cmpgr n)

/-- R115: opcode 13 is `cmple`, whatever the operand. -/
theorem decodeCell_packCell_cmple (n : Byte) : decodeCell (packCell 0x0D n) = .ok (.cmple n) :=
  (decodeCell_packCell _ n).trans (Laws.FieldsDecode.cmple n)

/-! ### The outcomes -/

/-- R112: bytes of the same unsigned value are the same byte. -/
theorem flagEqual_eq_decide (acc d : Byte) : flagEqual acc d = decide (acc = d) :=
  decide_eq_decide.2 BitVec.toNat_inj

/-- R114: unsigned and strict, so a byte is not greater than itself. -/
theorem flagGreater_eq_decide (acc d : Byte) : flagGreater acc d = decide (d.toNat < acc.toNat) := rfl

/-- R115: unsigned and strict, despite the name `cmple`. -/
theorem flagLess_eq_decide (acc d : Byte) : flagLess acc d = decide (acc.toNat < d.toNat) := rfl

/-! ### At a checked address -/

/-- R111: the target replaces the incremented `pc`; there is no other effect. -/
theorem exec_jmp_of_checkAddr {n : Byte} {a : Addr} (h : checkAddr n = some a) (s : State) :
    exec (.jmp n) s = .next { s with pc := a } := by
  rw [exec_jmp, withAddress_some h]
  rfl

/-- R110: a comparison, whichever its test, applies it to the operand field of the cell, and only `cond`
and `pc` are written. -/
theorem withData_compare {n : Byte} {a : Addr} (h : checkAddr n = some a) (s : State)
    (test : Byte → Bool) :
    (withData n s fun d => s.compare (test d)) =
      .next { s with pc := s.pc + 1, cond := test (operandOf (s.mem.readCell a)) } := by
  rw [withData_some h, State.readData, Memory.readData_eq]
  rfl

/-! ### The obligations -/

/-- Settles O13: the jump to a checked target, and the fault of an address operand. -/
theorem jmpGoesToCheckedTarget : Obligations.JmpGoesToCheckedTarget := by
  intro n s
  refine ⟨decodeCell_packCell_jmp n, fun a ha => ?_, fun hn => ?_⟩
  · exact exec_jmp_of_checkAddr ha s
  · exact exec_faultsWith_illegalAddress rfl hn (by simp)

/-- Settles O14: a comparison whose test is equality of the bytes. -/
theorem cmpeWritesEquality : Obligations.CmpeWritesEquality := by
  intro n s
  refine ⟨decodeCell_packCell_cmpe n, fun a ha => ?_, fun hn => ?_⟩
  · rw [exec_cmpe, withData_compare ha, flagEqual_eq_decide]
  · exact exec_faultsWith_illegalAddress rfl hn (by simp)

/-- Settles O16: a comparison whose test is the unsigned strict order, memory byte below `acc`. -/
theorem cmpgrWritesUnsignedGreater : Obligations.CmpgrWritesUnsignedGreater := by
  intro n s
  refine ⟨decodeCell_packCell_cmpgr n, fun a ha => ?_, fun hn => ?_⟩
  · rw [exec_cmpgr, withData_compare ha, flagGreater_eq_decide]
  · exact exec_faultsWith_illegalAddress rfl hn (by simp)

/-- Settles O17: a comparison whose test is the unsigned strict order, `acc` below the memory byte. -/
theorem cmpleWritesUnsignedLess : Obligations.CmpleWritesUnsignedLess := by
  intro n s
  refine ⟨decodeCell_packCell_cmple n, fun a ha => ?_, fun hn => ?_⟩
  · rw [exec_cmple, withData_compare ha, flagLess_eq_decide]
  · exact exec_faultsWith_illegalAddress rfl hn (by simp)

end Sys2Proof.Machine

namespace Sys2Proof.Machine

/-! ## Reset and the host interface: power-on (70_reset_and_hazards.md)

The zero cell, read everywhere in a memory with nothing listed, and the one answer of the machine to power-on
outside a run. -/

/-! ### The memory of power-on -/

/-- R150: with nothing listed, every cell is the zero instruction. -/
theorem Memory.readCell_nil_eq_packCell (a : Addr) : Memory.readCell [] a = packCell 0 0 :=
  (Memory.readCell_nil a).trans (packCell_fields 0).symm

/-- R150: the cell of `data 0`, a no-op. -/
theorem decodeCell_readCell_nil (a : Addr) : decodeCell (Memory.readCell [] a) = .ok (.data 0) := by
  rw [Memory.readCell_nil_eq_packCell, decodeCell_packCell_data]

/-! ### The input -/

/-- R150: from IDLE, HALTED and FAULTED alike, nothing of the state before power-on is kept. -/
theorem hostStep_powerOn {s : State} (hs : s.run ≠ .running) :
    hostStep .powerOn s = .next State.powerOn := by
  cases hrun : s.run with
  | running => exact absurd hrun hs
  | idle | halted | faulted r => simp only [hostStep, hrun]

/-! ### The obligation -/

/-- Settles O46: the input's answer outside a run, and the zero cell read everywhere in the memory of
power-on, which is also the memory a load begins with. -/
theorem powerOnZeroesEverything : Obligations.PowerOnZeroesEverything := by
  refine ⟨fun s hs => hostStep_powerOn hs, ⟨rfl, rfl, rfl, rfl, rfl, fun a => ?_⟩, fun text => ⟨rfl, ?_⟩⟩
  · exact ⟨Memory.readCell_nil_eq_packCell a, decodeCell_readCell_nil a⟩
  · exact Memory.readCell_nil_eq_packCell

end Sys2Proof.Machine

namespace Sys2Proof.Machine

/-! ## The encoding (30_encoding.md)

The decoder answers exactly for the named opcodes, and the encoder is its inverse; the names of the table. -/

/-! ### Instructions and their fields -/

/-- R53: the fields of an instruction decode to it, for every row of the table. -/
theorem decodeFields_opcode_operand (i : Instr) : decodeFields i.opcode i.operand = .ok i := by
  cases i <;> rfl

/-- R55: no instruction has a reserved opcode or one above 18. -/
theorem opcode_named (i : Instr) : i.opcode.toNat ≤ 15 ∨ i.opcode.toNat = 18 := by
  cases i <;> simp [Instr.opcode]

/-- R50, R53: a cell decodes to an instruction exactly when it is the instruction's cell. -/
theorem decodeCell_eq_ok_iff {w : CellWord} {i : Instr} : decodeCell w = .ok i ↔ encodeCell i = w := by
  constructor
  · intro h
    obtain ⟨hop, hn⟩ := decodeFields_ok h
    rw [encodeCell, hop, hn, packCell_fields]
  · rintro rfl
    rw [encodeCell, decodeCell_packCell, decodeFields_opcode_operand]

/-- R57: decoding the bytes of an instruction gives it back and leaves what follows them. -/
theorem decode_encode_append (i : Instr) (rest : List Byte) :
    decode (encode i ++ rest) = .ok (i, rest) := by
  have hd : decodeFields (opcodeOf (encodeCell i)) (operandOf (encodeCell i)) = .ok i :=
    decodeCell_eq_ok_iff.2 rfl
  simp [encode, cellBytes, decode_pair, hd]

/-! ### Which opcodes are named -/

/-- R55: the decoder answers for the opcodes 0 to 15 and 18, whatever the operand. -/
theorem exists_decodeFields_ok_iff (op n : Byte) :
    (∃ i, decodeFields op n = .ok i) ↔ op.toNat ≤ 15 ∨ op.toNat = 18 := by
  constructor
  · rintro ⟨i, hi⟩
    rw [← (decodeFields_ok hi).1]
    exact opcode_named i
  · intro hop
    unfold decodeFields
    generalize op.toNat = k at hop ⊢
    obtain hk | rfl := hop
    · interval_cases k <;> exact ⟨_, rfl⟩
    · exact ⟨_, rfl⟩

theorem exists_decodeCell_ok_iff (w : CellWord) :
    (∃ i, decodeCell w = .ok i) ↔ (opcodeOf w).toNat ≤ 15 ∨ (opcodeOf w).toNat = 18 :=
  exists_decodeFields_ok_iff _ _

/-- A cell is rejected for no other reason than its opcode (R55). -/
theorem decodeCell_error {w : CellWord} {e : DecodeError} (h : decodeCell w = .error e) :
    e = .illegalOpcode (opcodeOf w) :=
  decodeFields_error h

/-- An unnamed opcode is rejected (R55). -/
theorem exists_decodeCell_error {w : CellWord}
    (h : ¬((opcodeOf w).toNat ≤ 15 ∨ (opcodeOf w).toNat = 18)) : ∃ e, decodeCell w = .error e := by
  cases hd : decodeCell w with
  | error e => exact ⟨e, rfl⟩
  | ok i => exact absurd ((exists_decodeCell_ok_iff w).1 ⟨i, hd⟩) h

/-- 10_state.md R16: a cell holds an instruction exactly when it decodes. -/
theorem namedCell_iff (w : CellWord) : namedCell w = true ↔ ∃ i, decodeCell w = .ok i := by
  rw [exists_decodeCell_ok_iff, namedCell, Laws.rawInstr_wellFormed_iff]
  exact and_iff_left (Nat.le_of_lt_succ (operandOf w).isLt)

/-! ### The table of names -/

/-- R53: the table names the opcodes the decoder answers for. -/
theorem exists_slotOf_named_iff (op : Byte) :
    (∃ nm b, slotOf op = some (.named nm b)) ↔ op.toNat ≤ 15 ∨ op.toNat = 18 := by
  rw [slotOf]
  generalize op.toNat = k
  by_cases hk : k < 19
  · interval_cases k <;> simp [opcodeTable]
  · simp only [List.getElem?_eq_none (l := opcodeTable) (i := k) (by simp [opcodeTable]; omega)]
    simp
    omega

/-! ### The obligations -/

/-- Settles O18: the encoder writes the fields that the decoder reads, and a cell is its two fields. -/
theorem decodeAndEncodeAgree : Obligations.DecodeAndEncodeAgree := by
  refine ⟨decode_encode_append, fun w i => decodeCell_eq_ok_iff, fun i => ?_⟩
  exact Laws.rawInstr_wellFormed_of_opcode i.operand (opcode_named i)

/-- Settles O19: the decoder and the table have the same domain, the opcodes 0 to 15 and 18. -/
theorem decodeRejectsExactlyUnnamedOpcodes : Obligations.DecodeRejectsExactlyUnnamedOpcodes := by
  intro w
  refine ⟨exists_decodeCell_ok_iff w, ?_, fun e => decodeCell_error⟩
  exact (exists_decodeCell_ok_iff w).trans (exists_slotOf_named_iff (opcodeOf w)).symm

/-- Settles O20: fixed words, evaluated. -/
theorem sampleWordsDecode : Obligations.SampleWordsDecode :=
  ⟨rfl, rfl, rfl, rfl, rfl, rfl⟩

end Sys2Proof.Machine

namespace Sys2Proof.Machine

/-! ## Arithmetic, output, `sleep` and `jc` (40_system_io.md, 42_arithmetic_logic.md, 43_compare_branch.md)

What each of them answers at a checked address, and the negation of a byte. -/

/-! ### Decoding the packed cells -/

/-- R82: opcode 2 is `print`, whatever the operand. -/
theorem decodeCell_packCell_print (n : Byte) : decodeCell (packCell 0x02 n) = .ok (.print n) :=
  (decodeCell_packCell _ n).trans (Laws.FieldsDecode.print n)

/-- R83: opcode 3 is `sleep`, whatever the operand. -/
theorem decodeCell_packCell_sleep (n : Byte) : decodeCell (packCell 0x03 n) = .ok (.sleep n) :=
  (decodeCell_packCell _ n).trans (Laws.FieldsDecode.sleep n)

/-- R101: opcode 7 is `add`, whatever the operand. -/
theorem decodeCell_packCell_add (n : Byte) : decodeCell (packCell 0x07 n) = .ok (.add n) :=
  (decodeCell_packCell _ n).trans (Laws.FieldsDecode.add n)

/-- R102: opcode 8 is `sub`, whatever the operand. -/
theorem decodeCell_packCell_sub (n : Byte) : decodeCell (packCell 0x08 n) = .ok (.sub n) :=
  (decodeCell_packCell _ n).trans (Laws.FieldsDecode.sub n)

/-- R113: opcode 11 is `jc`, whatever the operand. -/
theorem decodeCell_packCell_jc (n : Byte) : decodeCell (packCell 0x0B n) = .ok (.jc n) :=
  (decodeCell_packCell _ n).trans (Laws.FieldsDecode.jc n)

/-- R103: opcode 14 is `neg`, whatever the operand. -/
theorem decodeCell_packCell_neg (n : Byte) : decodeCell (packCell 0x0E n) = .ok (.neg n) :=
  (decodeCell_packCell _ n).trans (Laws.FieldsDecode.neg n)

/-- R84: opcode 18 is `pout`, whatever the operand. -/
theorem decodeCell_packCell_pout (n : Byte) : decodeCell (packCell 0x12 n) = .ok (.pout n) :=
  (decodeCell_packCell _ n).trans (Laws.FieldsDecode.pout n)

/-! ### The arithmetic unit -/

/-- R101: a byte that equals the integer sum is the result of `add`. -/
theorem aluAdd_eq_some {acc d v : Byte} (h : v.toNat = acc.toNat + d.toNat) :
    aluAdd acc d = some v :=
  narrow_some.2 (by omega)

/-- R101: above 255 there is no result. -/
theorem aluAdd_eq_none {acc d : Byte} (h : 255 < acc.toNat + d.toNat) : aluAdd acc d = none :=
  narrow_none.2 (by omega)

/-- R102: a byte that makes up the difference is the result of `sub`. -/
theorem aluSub_eq_some {acc d v : Byte} (h : v.toNat + d.toNat = acc.toNat) :
    aluSub acc d = some v :=
  narrow_some.2 (by omega)

/-- R102: below 0 there is no result. -/
theorem aluSub_eq_none {acc d : Byte} (h : acc.toNat < d.toNat) : aluSub acc d = none :=
  narrow_none.2 (by omega)

theorem toNat_aluNeg (acc : Byte) : (aluNeg acc).toNat = (256 - acc.toNat) % 256 := by
  rw [aluNeg, BitVec.toNat_ofNat]
  omega

/-- R103: a byte and its negation add up to a multiple of 256. -/
theorem add_aluNeg_mod (acc : Byte) : (acc.toNat + (aluNeg acc).toNat) % 256 = 0 := by
  rw [toNat_aluNeg]
  omega

/-- R103: negating twice restores the accumulator. -/
theorem aluNeg_aluNeg (acc : Byte) : aluNeg (aluNeg acc) = acc := by
  refine BitVec.eq_of_toNat_eq ?_
  rw [toNat_aluNeg, toNat_aluNeg]
  omega

/-! ### At a checked address -/

/-- R31: an operand of at most 127 is an address. -/
theorem exists_checkAddr {n : Byte} (h : n.toNat ≤ 127) : ∃ a, checkAddr n = some a :=
  Option.ne_none_iff_exists'.1 fun hnone => absurd (checkAddr_none.1 hnone) (by omega)

/-- R101: the operand is the operand field of the cell. -/
theorem exec_add_of_checkAddr {n : Byte} {a : Addr} (h : checkAddr n = some a) (s : State) :
    exec (.add n) s = .next (s.arith (aluAdd s.acc (operandOf (s.mem.readCell a))) .over) := by
  rw [exec_add, withData_some h, State.readData, Memory.readData_eq]

/-- R102: the operand is the operand field of the cell. -/
theorem exec_sub_of_checkAddr {n : Byte} {a : Addr} (h : checkAddr n = some a) (s : State) :
    exec (.sub n) s = .next (s.arith (aluSub s.acc (operandOf (s.mem.readCell a))) .under) := by
  rw [exec_sub, withData_some h, State.readData, Memory.readData_eq]

/-! ### The parameter of `jc` -/

/-- R113: taken, `jc` is a checked jump, whatever the parameter. -/
theorem execJcWith_taken {s : State} (h : s.cond = true) (b : Bool) (n : Byte) :
    execJcWith b n s = withAddress n s fun a => s.advance.setPc a :=
  if_pos h

/-- R113: untaken and not asked to check, `jc` falls through. -/
theorem execJcWith_unchecked {s : State} (h : s.cond = false) (n : Byte) :
    execJcWith false n s = .next s.advance := by
  simp [execJcWith, h]

/-- R113, D4: untaken and asked to check, `jc` passes its operand to the address decoder. -/
theorem execJcWith_checked {s : State} (h : s.cond = false) (n : Byte) :
    execJcWith true n s = withAddress n s fun _ => s.advance := by
  simp [execJcWith, h]

/-- D4: at a checked address, or when the jump is taken, the parameter makes no difference. -/
theorem execJcWith_eq_execJc {n : Byte} {s : State} (h : n.toNat ≤ 127 ∨ s.cond = true) (b : Bool) :
    execJcWith b n s = execJc n s := by
  rw [execJc]
  cases hc : s.cond with
  | true => rw [execJcWith_taken hc, execJcWith_taken hc]
  | false =>
    have hn : n.toNat ≤ 127 := h.resolve_right (by simp [hc])
    obtain ⟨a, ha⟩ := exists_checkAddr hn
    rw [Config.jcChecksUntakenTarget, execJcWith_unchecked hc]
    cases b with
    | false => exact execJcWith_unchecked hc n
    | true => rw [execJcWith_checked hc, withAddress_some ha]

/-! ### The obligations -/

/-- Settles O9: the exact sum, the range fault and, before either, the address fault. -/
theorem addFaultsInsteadOfWrapping : Obligations.AddFaultsInsteadOfWrapping := by
  intro n s
  refine ⟨decodeCell_packCell_add n, fun a ha => ⟨fun v hv => ?_, fun hover => ?_⟩, fun hn => ?_⟩
  · rw [exec_add_of_checkAddr ha, aluAdd_eq_some hv]
    rfl
  · rw [exec_add_of_checkAddr ha, aluAdd_eq_none hover]
    rfl
  · exact exec_illegalAddress rfl hn (by simp)

/-- Settles O10: the exact difference, the range fault and, before either, the address fault. -/
theorem subFaultsInsteadOfWrapping : Obligations.SubFaultsInsteadOfWrapping := by
  intro n s
  refine ⟨decodeCell_packCell_sub n, fun a ha => ⟨fun v hv => ?_, fun hunder => ?_⟩, fun hn => ?_⟩
  · rw [exec_sub_of_checkAddr ha, aluSub_eq_some hv]
    rfl
  · rw [exec_sub_of_checkAddr ha, aluSub_eq_none hunder]
    rfl
  · exact exec_illegalAddress rfl hn (by simp)

/-- Settles O11: the byte is `aluNeg`, which is its own inverse. -/
theorem negWrapsModulo256 : Obligations.NegWrapsModulo256 := by
  intro n s
  refine ⟨decodeCell_packCell_neg n, aluNeg s.acc, add_aluNeg_mod s.acc, exec_neg n s, ?_⟩
  rw [exec_neg, aluNeg_aluNeg]
  rfl

/-- Settles O3: the equation of `print`. -/
theorem printAppendsPlainEvent : Obligations.PrintAppendsPlainEvent :=
  fun n s => ⟨decodeCell_packCell_print n, exec_print n s⟩

/-- Settles O4: the equation of `sleep`. -/
theorem sleepIsANoOp : Obligations.SleepIsANoOp :=
  fun n s => ⟨decodeCell_packCell_sleep n, exec_sleep n s⟩

/-- Settles O5: the equation of `pout`. -/
theorem poutAppendsFramedEvent : Obligations.PoutAppendsFramedEvent :=
  fun n s => ⟨decodeCell_packCell_pout n, exec_pout n s⟩

/-- Settles O15: the two equations of `jc`, and the fault of an address operand where it is used. -/
theorem jcJumpsOnTrueOnly : Obligations.JcJumpsOnTrueOnly := by
  intro n s
  refine ⟨decodeCell_packCell_jc n, fun hc => exec_jc_false hc n, fun hc => ?_⟩
  refine ⟨fun a ha => ?_, fun hn => ?_⟩
  · rw [exec_jc_true hc, withAddress_some ha]
    rfl
  · exact exec_illegalAddress rfl hn fun _ => hc

/-- Settles O30: the parameter is looked at in the untaken case only, and decides there whether the operand
is checked. -/
theorem jcParameterMattersOnlyUntakenAbove127 : Obligations.JcParameterMattersOnlyUntakenAbove127 := by
  intro b n s
  refine ⟨fun h => execJcWith_eq_execJc h b, fun hn hc => ⟨?_, execJcWith_unchecked hc n⟩⟩
  rw [execJcWith_checked hc, withAddress_none hn]
  rfl

/-- Settles O21: the meanings of these six do not mention their operand. -/
theorem ignoredOperandHasNoEffect : Obligations.IgnoredOperandHasNoEffect :=
  fun _ _ _ => ⟨rfl, rfl, rfl, rfl, rfl, rfl⟩

end Sys2Proof.Machine

namespace Sys2Proof.Machine

/-! ## The step and its faults (10_state.md section 6, 60_exceptions.md)

What a running machine does with the cell it fetches, and exactly when and how it faults. -/

/-! ### One step -/

/-- R22: a fetched instruction is executed, with nothing around it. -/
theorem step_of_decodeCell_ok {s : State} {i : Instr} (hs : s.run = .running)
    (hi : decodeCell s.fetchCell = .ok i) : step s = exec i s := by
  simp only [step, hs, State.fetchInstr_eq, hi]

/-- R122: a cell that does not decode raises IllegalOpcode. -/
theorem step_of_decodeCell_error {s : State} {e : DecodeError} (hs : s.run = .running)
    (he : decodeCell s.fetchCell = .error e) : step s = .next (s.raise .illegalOpcode .none) := by
  simp only [step, hs, State.fetchInstr_eq, he]

/-- The bytes of the fetch decode to what its cell decodes to. -/
theorem decodeCell_of_decode_fetchBytes {s : State} {i : Instr} {rest : List Byte}
    (h : decode s.fetchBytes = .ok (i, rest)) : decodeCell s.fetchCell = .ok i := by
  rw [← State.fetchInstr_eq, State.fetchInstr, h]

/-- An address operand has a next state, checked or not (R31). -/
theorem exists_withAddress_next (n : Byte) (s : State) (k : Addr → State) :
    ∃ t, withAddress n s k = .next t := by
  cases h : checkAddr n with
  | some a => exact ⟨_, withAddress_some h s k⟩
  | none => exact ⟨_, withAddress_none (checkAddr_none.1 h) s k⟩

/-- Every instruction has a next state, whatever the state. -/
theorem exists_exec_next (i : Instr) (s : State) : ∃ t, exec i s = .next t := by
  cases i with
  | data n | hlt n | print n | sleep n | ldc n | neg n | pout n => exact ⟨_, rfl⟩
  | lda n | sta n | add n | sub n | and n | jmp n | cmpe n | cmpgr n | cmple n =>
    exact exists_withAddress_next n s _
  | jc n =>
    cases hc : s.cond with
    | true => exact exec_jc_true hc n ▸ exists_withAddress_next n s _
    | false => exact ⟨_, exec_jc_false hc n⟩

/-- An instruction answers one of its effects and nothing else. -/
theorem Effect.exec_eq {i : Instr} {s t : State} (h : Effect s i t) : exec i s = .next t := by
  cases h with
  | data n | hlt n | print n | sleep n | ldc n | neg n | pout n => rfl
  | lda n a ha | and n a ha | cmpe n a ha | cmpgr n a ha | cmple n a ha =>
    simp only [exec_lda, exec_and, exec_cmpe, exec_cmpgr, exec_cmple, withData_some ha]
  | sta n a ha | jmp n a ha => exact withAddress_some ha s _
  | jcTaken n a hc ha => rw [exec_jc_true hc, withAddress_some ha]
  | jcUntaken n hc => exact exec_jc_false hc n
  | add n a v ha hv => rw [exec_add, withData_some ha, aluAdd_eq_some hv]; rfl
  | addOver n a ha hv => rw [exec_add, withData_some ha, aluAdd_eq_none hv]; rfl
  | sub n a v ha hv => rw [exec_sub, withData_some ha, aluSub_eq_some hv]; rfl
  | subUnder n a ha hv => rw [exec_sub, withData_some ha, aluSub_eq_none hv]; rfl
  | badAddress i n hi hn hc => exact exec_illegalAddress hi hn hc

/-! ### When an instruction faults -/

/-- An ill-formed instruction is one with an address operand above 127 (R31). -/
theorem wellFormed_eq_false_iff (i : Instr) :
    i.wellFormed = false ↔ ∃ n, i.addressOperand = some n ∧ 127 < n.toNat := by
  rw [Instr.wellFormed]
  cases i.addressOperand <;> simp [Config.addrMax]

/-- A running machine faults in an instruction by an illegal address or by leaving the range, and the fault
is the whole effect (R126, R130). -/
theorem exec_fault_cases {s t : State} {i : Instr} {r : FaultRecord} (h : exec i s = .next t)
    (hs : s.run = .running) (ht : t.run = .faulted r) :
    (badAddress i s ∧ t = s.raise .illegalAddress .none) ∨
      ∃ sub, badRange i s sub ∧ t = s.raise .overflowUnderflow sub := by
  cases exec_effect h with
  | badAddress i n hi hn hc => exact .inl ⟨⟨(wellFormed_eq_false_iff i).2 ⟨n, hi, hn⟩, hc⟩, rfl⟩
  | addOver n a ha hv =>
    rw [State.readData, Memory.readData_eq] at hv
    exact .inr ⟨.over, ⟨n, a, ha, .inl ⟨rfl, rfl, hv⟩⟩, rfl⟩
  | subUnder n a ha hv =>
    rw [State.readData, Memory.readData_eq] at hv
    exact .inr ⟨.under, ⟨n, a, ha, .inr ⟨rfl, rfl, hv⟩⟩, rfl⟩
  | hlt n => simp at ht
  | _ => simp [hs] at ht

/-- R123: an illegal address is raised, and nothing else happens. -/
theorem effect_of_badAddress {i : Instr} {s : State} (h : badAddress i s) :
    Effect s i (s.raise .illegalAddress .none) := by
  obtain ⟨hwf, hc⟩ := h
  obtain ⟨n, hi, hn⟩ := (wellFormed_eq_false_iff i).1 hwf
  exact .badAddress i n hi hn hc

/-- R126: a result out of range is raised with its sub-cause, and nothing else happens. -/
theorem effect_of_badRange {i : Instr} {s : State} {sub : SubCause} (h : badRange i s sub) :
    Effect s i (s.raise .overflowUnderflow sub) := by
  obtain ⟨n, a, ha, ⟨rfl, rfl, hv⟩ | ⟨rfl, rfl, hv⟩⟩ := h
  · exact .addOver n a ha (by rwa [State.readData, Memory.readData_eq])
  · exact .subUnder n a ha (by rwa [State.readData, Memory.readData_eq])

/-- An instruction has one effect in a state. -/
theorem Effect.unique {s t t' : State} {i : Instr} (h : Effect s i t) (h' : Effect s i t') :
    t = t' := by
  have heq := h.exec_eq.symm.trans h'.exec_eq
  injection heq

/-- R130: a step that faults has raised, with a kind and a sub-cause the engine has, and done nothing
else. -/
theorem step_fault {s t : State} {r : FaultRecord} (h : step s = .next t)
    (ht : t.run = .faulted r) : t = s.raise r.kind r.sub ∧ r.faultPc = s.pc ∧ r.engineMade = true := by
  obtain ⟨hs, ⟨i, -, he⟩ | ⟨-, rfl⟩⟩ := step_cases h
  · obtain ⟨-, rfl⟩ | ⟨sub, ⟨n, a, -, ⟨-, rfl, -⟩ | ⟨-, rfl, -⟩⟩, rfl⟩ :=
      exec_fault_cases he hs ht <;> cases ht <;> exact ⟨rfl, rfl, rfl⟩
  · cases ht
    exact ⟨rfl, rfl, rfl⟩

/-- The dormant kinds are not among those the engine makes (R124, R127). -/
theorem not_dormant_of_engineMade {r : FaultRecord} (h : r.engineMade = true) :
    r.kind ≠ .invalidOpcodeOrAddressInput ∧ r.kind ≠ .cassetteError := by
  constructor <;> rintro hk <;> simp [FaultRecord.engineMade, hk] at h

/-! ### The obligations -/

/-- Settles O22: the bytes of the fetch are the two bytes of its cell. -/
theorem stepRunsTheDecodedInstruction : Obligations.StepRunsTheDecodedInstruction :=
  fun _ _ _ hs hd => step_of_decodeCell_ok hs (decodeCell_of_decode_fetchBytes hd)

/-- Settles O23: the cell of an unnamed opcode does not decode, and an unknown mnemonic is not looked up. -/
theorem unnamedOpcodeRaisesIllegalOpcode : Obligations.UnnamedOpcodeRaisesIllegalOpcode := by
  refine ⟨rfl, fun s hs hop => ?_, fun l cs hnone => ?_⟩
  · have hunnamed : ¬((opcodeOf s.fetchCell).toNat ≤ 15 ∨ (opcodeOf s.fetchCell).toNat = 18) := by
      obtain h | h | h := hop
      · simp [h]
      · simp [h]
      · omega
    obtain ⟨e, he⟩ := exists_decodeCell_error hunnamed
    exact step_of_decodeCell_error hs he
  · simp only [loadInstr, hnone]

/-- Settles O24: every instruction has a next state, and it keeps RUNNING, halts or faults. -/
theorem runningMachineAlwaysSteps : Obligations.RunningMachineAlwaysSteps := by
  intro s hs
  cases hd : decodeCell s.fetchCell with
  | error e => exact ⟨_, step_of_decodeCell_error hs hd, .inr (.inr ⟨_, rfl⟩)⟩
  | ok i =>
    obtain ⟨t, ht⟩ := exists_exec_next i s
    refine ⟨t, (step_of_decodeCell_ok hs hd).trans ht, ?_⟩
    obtain hkeep | ⟨-, hhalt⟩ | hfault := (exec_effect ht).run_cases
    · exact .inl (hkeep.trans hs)
    · exact .inr (.inl hhalt)
    · exact .inr (.inr hfault)

/-- Settles O25: by the run state, which `step` and `hostStep` look at first. -/
theorem stoppedMachineTakesNoStep : Obligations.StoppedMachineTakesNoStep := by
  intro s
  refine ⟨fun h => ?_, fun h => ?_, fun r h => ⟨?_, ?_, s.runReset_run⟩⟩
  · simp only [step, h]
  · simp only [step, h]
  · simp only [step, h]
  · simp only [hostStep, h]

/-- Settles O26: the placed cell is read back by the fetch. -/
theorem placedWordRunsNext : Obligations.PlacedWordRunsNext := by
  intro s w i hm hi
  have hw : tableCell 16 w.toNat = w := by
    rw [tableCell, Nat.mod_eq_of_lt w.isLt, BitVec.ofNat_toNat, BitVec.setWidth_eq]
  rw [State.withFetchWord, hw]
  refine step_of_decodeCell_ok rfl ?_
  rw [State.fetchCell, State.placeCell_mem, State.placeCell_pc, Memory.readCell_writeCell_same hm, hi]

/-- Settles O27: a faulting step is a raise. -/
theorem faultingStepHasNoOtherEffect : Obligations.FaultingStepHasNoOtherEffect := by
  intro s t r h ht
  obtain ⟨rfl, hpc, hmade⟩ := step_fault h ht
  refine ⟨?_, hpc, hmade⟩
  rw [← ht]
  rfl

/-- Settles O28: both conditions lead to their raise, which is then the one effect, and there is no other
way to fault. -/
theorem instructionFaultsExactlyWhen : Obligations.InstructionFaultsExactlyWhen := by
  intro i s t hs h
  have heff := exec_effect h
  refine ⟨⟨?_, fun hbad => ?_⟩, fun sub => ⟨?_, fun hbad => ?_⟩, fun r hr => ?_⟩
  · rintro ⟨r, hr, hk⟩
    obtain ⟨hbad, -⟩ | ⟨sub, -, rfl⟩ := exec_fault_cases h hs hr
    · exact hbad
    · cases hr
      simp at hk
  · obtain rfl := heff.unique (effect_of_badAddress hbad)
    exact ⟨_, rfl, rfl⟩
  · rintro ⟨r, hr, hk, rfl⟩
    obtain ⟨-, rfl⟩ | ⟨sub, hbad, rfl⟩ := exec_fault_cases h hs hr
    · cases hr
      simp at hk
    · cases hr
      exact hbad
  · obtain rfl := heff.unique (effect_of_badRange hbad)
    exact ⟨_, rfl, rfl, rfl⟩
  · obtain ⟨-, rfl⟩ | ⟨sub, -, rfl⟩ := exec_fault_cases h hs hr <;> cases hr
    · exact .inl rfl
    · exact .inr rfl

end Sys2Proof.Machine

namespace Sys2Proof.Machine

/-! ## Canonical memories and what a step does to memory (20_memory.md)

A canonical memory is determined by what it reads as, and a step changes at most one cell, into a data
word. -/

/-! ### Memories that read the same -/

/-- Memories that are canonical from one key on and read the same are the same list: their first keys agree,
since a listed key never reads as an unlisted one. -/
theorem Memory.wfFrom_ext {m m' : Memory} {lo : Nat} (hm : Memory.wfFrom lo m = true)
    (hm' : Memory.wfFrom lo m' = true) (h : ∀ k, m.readByte k = m'.readByte k) : m = m' := by
  induction m generalizing lo m' with
  | nil =>
    cases m' with
    | nil => rfl
    | cons e' rest' =>
      obtain ⟨-, -, hv', -⟩ := Memory.wfFrom_cons.1 hm'
      exact absurd ((h e'.1).symm.trans rfl) (by simpa [Memory.readByte] using hv')
  | cons e rest ih =>
    obtain ⟨hlo, hk, hv, hrest⟩ := Memory.wfFrom_cons.1 hm
    have hread : Memory.readByte (e :: rest) e.1 = e.2 := if_pos rfl
    cases m' with
    | nil => exact absurd (hread.symm.trans (h e.1)) hv
    | cons e' rest' =>
      obtain ⟨hlo', hk', hv', hrest'⟩ := Memory.wfFrom_cons.1 hm'
      have hread' : Memory.readByte (e' :: rest') e'.1 = e'.2 := if_pos rfl
      have hkey : e.1 = e'.1 := by
        by_contra hne
        obtain hlt | hgt := Nat.lt_or_gt_of_ne hne
        · have hbelow := Memory.readByte_below (lo := e'.1)
            (Memory.wfFrom_cons.2 ⟨le_rfl, hk', hv', hrest'⟩) hlt
          exact hv (hread.symm.trans ((h e.1).trans hbelow))
        · have hbelow := Memory.readByte_below (lo := e.1)
            (Memory.wfFrom_cons.2 ⟨le_rfl, hk, hv, hrest⟩) hgt
          exact hv' (hread'.symm.trans ((h e'.1).symm.trans hbelow))
      have hval : e.2 = e'.2 := by rw [← hread, h, hkey, hread']
      have htail : rest = rest' := by
        refine ih hrest (hkey ▸ hrest') fun k => ?_
        by_cases hke : e.1 = k
        · rw [Memory.readByte_below hrest (by omega), Memory.readByte_below hrest' (by omega)]
        · simpa only [Memory.readByte, if_neg hke, if_neg (hkey ▸ hke)] using h k
      rw [htail, Prod.ext hkey hval]

@[simp] theorem Memory.opcodeOf_readCell (m : Memory) (a : Addr) :
    opcodeOf (m.readCell a) = m.readByte (opcodeKey a) :=
  opcodeOf_packCell _ _

@[simp] theorem Memory.operandOf_readCell (m : Memory) (a : Addr) :
    operandOf (m.readCell a) = m.readByte (operandKey a) :=
  operandOf_packCell _ _

/-- R35: every key of the image is one of the two keys of a cell. -/
theorem exists_cell_of_key {k : Nat} (hk : k < memKeys) :
    ∃ a, k = opcodeKey a ∨ k = operandKey a := by
  have hk' : k < 256 := hk
  refine ⟨BitVec.ofNat 7 (k / 2), ?_⟩
  simp only [opcodeKey, operandKey, BitVec.toNat_ofNat]
  omega

/-- Canonical memories with the same cells have the same bytes. -/
theorem Memory.readByte_eq_of_readCell_eq {m m' : Memory} (hm : m.wf = true) (hm' : m'.wf = true)
    (h : ∀ a, m.readCell a = m'.readCell a) (k : Nat) : m.readByte k = m'.readByte k := by
  by_cases hk : k < memKeys
  · obtain ⟨a, rfl | rfl⟩ := exists_cell_of_key hk
    · rw [← Memory.opcodeOf_readCell, h, Memory.opcodeOf_readCell]
    · rw [← Memory.operandOf_readCell, h, Memory.operandOf_readCell]
  · rw [Memory.readByte_above hm (by omega), Memory.readByte_above hm' (by omega)]

/-! ### What a step does to memory -/

/-- An instruction keeps memory or stores the accumulator as one data word (R33). -/
theorem Effect.mem_cases {s t : State} {i : Instr} (h : Effect s i t) :
    t.mem = s.mem ∨ ∃ a, t.mem = s.mem.writeData a s.acc := by
  cases h with
  | sta n a ha => exact .inr ⟨a, rfl⟩
  | _ => exact .inl rfl

theorem step_mem_cases {s t : State} (h : step s = .next t) :
    t.mem = s.mem ∨ ∃ a, t.mem = s.mem.writeData a s.acc := by
  obtain ⟨-, ⟨i, -, he⟩ | ⟨-, rfl⟩⟩ := step_cases h
  · exact (exec_effect he).mem_cases
  · exact .inl rfl

/-- Every step keeps the canonical form. -/
theorem step_mem_wf {s t : State} (hm : s.mem.wf = true) (h : step s = .next t) :
    t.mem.wf = true := by
  obtain hkeep | ⟨a, hstore⟩ := step_mem_cases h
  · rwa [hkeep]
  · rw [hstore]
    exact Memory.wf_writeData hm

/-- R42: a step leaves a cell as it was or makes it a data word. -/
theorem step_readCell_cases {s t : State} (hm : s.mem.wf = true) (h : step s = .next t) (a : Addr) :
    t.mem.readCell a = s.mem.readCell a ∨ t.mem.readCell a = packCell 0 s.acc := by
  obtain hkeep | ⟨b, hstore⟩ := step_mem_cases h
  · exact .inl (by rw [hkeep])
  · rw [hstore]
    by_cases hab : a = b
    · exact .inr (hab ▸ Memory.readCell_writeData_same hm)
    · exact .inl (Memory.readCell_writeCell_ne s.mem hab)

/-! ### The obligations -/

/-- Settles O39: the same cells are the same bytes, and those determine the list. -/
theorem canonicalMemoriesAreExtensional : Obligations.CanonicalMemoriesAreExtensional :=
  fun _ _ hm hm' h => Memory.wfFrom_ext hm hm' (Memory.readByte_eq_of_readCell_eq hm hm' h)

/-- Settles O40: the store of the accumulator is the only change a step makes to memory. -/
theorem noProgramCreatesAnExecutableCell : Obligations.NoProgramCreatesAnExecutableCell :=
  fun _ _ a hm h => step_readCell_cases hm h a

/-- Settles O38: the address decoder accepts the operands without bit 7. -/
theorem checkAddrAcceptsExactly0To127 : Obligations.CheckAddrAcceptsExactly0To127 := by
  intro n
  refine ⟨fun a => checkAddr_some, ?_⟩
  rw [checkAddr_none, ← BitVec.msb_eq_getLsbD_last, BitVec.msb_eq_decide, decide_eq_true_eq]
  exact Nat.lt_iff_add_one_le

/-- Settles O41: the first step stores the accumulator into the next cell, where the second fetches it as
`data`. -/
theorem storeIsSeenByTheNextFetch : Obligations.StoreIsSeenByTheNextFetch := by
  intro s n hs hm hsta ha
  have hstep := (step_of_decodeCell_ok hs hsta).trans (exec_sta_of_checkAddr ha s)
  have hfetch : decodeCell ((s.mem.writeData (s.pc + 1) s.acc).readCell (s.pc + 1)) =
      .ok (.data s.acc) := by
    rw [Memory.readCell_writeData_same hm, decodeCell_packCell_data]
  refine ⟨_, hstep, hfetch, (step_of_decodeCell_ok (i := .data s.acc) ?_ ?_).trans (exec_data _ _)⟩
  · exact hs
  · exact hfetch

end Sys2Proof.Machine

namespace Sys2Proof.Machine

/-! ## The invariants (10_state.md sections 3 and 4)

Canonical memory and a legal fault record, and the cells that hold instructions, from one state to the
next. -/

/-! ### The invariant of the machine -/

/-- A machine that is not faulted has no fault record to check. -/
theorem State.faultOk_of_run_ne {s : State} (h : ∀ r, s.run ≠ .faulted r) : s.faultOk :=
  fun r hr => absurd hr (h r)

theorem State.powerOn_inv : State.powerOn.Inv :=
  ⟨rfl, State.faultOk_of_run_ne (by simp [State.powerOn])⟩

/-- A fault record made by a step names the cell before `pc` (R130). -/
theorem step_faultOk {s t : State} (h : step s = .next t) : t.faultOk := by
  intro r hr
  obtain ⟨rfl, hpc, hmade⟩ := step_fault h hr
  exact ⟨hmade, by rw [State.raise_pc, hpc]⟩

/-! ### Cells that hold instructions -/

/-- A data word is an instruction, whatever it holds (R42). -/
theorem namedCell_packCell_zero (v : Byte) : namedCell (packCell 0 v) = true :=
  (namedCell_iff _).2 ⟨_, decodeCell_packCell_data v⟩

/-- After power-on every cell holds `data 0` (R150). -/
theorem namedCell_readCell_nil (a : Addr) : namedCell (Memory.readCell [] a) = true :=
  (namedCell_iff _).2 ⟨_, decodeCell_readCell_nil a⟩

/-- A step keeps every cell an instruction, since all it stores are data words. -/
theorem step_allNamed {s t : State} (hm : s.mem.wf = true) (hs : s.AllNamed)
    (h : step s = .next t) : t.AllNamed := by
  intro a
  obtain hkeep | hdata := step_readCell_cases hm h a
  · rw [hkeep]
    exact hs a
  · rw [hdata]
    exact namedCell_packCell_zero s.acc

/-- Where every cell holds an instruction, a fault is one of the two an instruction can raise. -/
theorem step_fault_kind {s t : State} {r : FaultRecord} (hs : s.AllNamed) (h : step s = .next t)
    (hr : t.run = .faulted r) : r.kind = .illegalAddress ∨ r.kind = .overflowUnderflow := by
  obtain ⟨hrun, ⟨i, -, he⟩ | ⟨⟨e, he⟩, -⟩⟩ := step_cases h
  · obtain ⟨-, rfl⟩ | ⟨sub, -, rfl⟩ := exec_fault_cases he hrun hr <;> cases hr
    · exact .inl rfl
    · exact .inr rfl
  · obtain ⟨i, hi⟩ := (namedCell_iff _).1 (hs s.pc)
    simp [State.fetchCell, hi] at he

/-! ### The obligations -/

/-- Settles O42: the only store is a cell write, and the only fault record is the one the step made. -/
theorem invariantIsKeptByEveryStep : Obligations.InvariantIsKeptByEveryStep :=
  fun _ _ ⟨hwf, _⟩ h => ⟨step_mem_wf hwf h, step_faultOk h⟩

/-- Settles O44: stores write data words, and every cell that is fetched decodes. -/
theorem namedCellsAreKeptByEveryStep : Obligations.NamedCellsAreKeptByEveryStep := by
  intro s t hm hs h
  refine ⟨step_allNamed hm hs h, fun r hr hk => ?_⟩
  simpa [hk] using step_fault_kind hs h hr

/-- Settles O43: nothing is listed, so every cell is `data 0`, and neither state is faulted. -/
theorem resetMeetsTheInvariant : Obligations.ResetMeetsTheInvariant := by
  refine ⟨⟨rfl, ?_⟩, State.powerOn_inv, namedCell_readCell_nil, namedCell_readCell_nil⟩
  exact State.faultOk_of_run_ne (by simp [State.reset])

/-- Settles O45: a load keeps the canonical form, and after each input the machine is not faulted. -/
theorem hostInputsKeepTheInvariant : Obligations.HostInputsKeepTheInvariant := by
  intro e s t ⟨hwf, _⟩ h
  obtain ⟨-, ⟨-, rfl⟩ | ⟨a, w, -, hidle, rfl⟩ | ⟨-, rfl⟩⟩ := hostStep_cases h
  · exact State.powerOn_inv
  · exact ⟨Memory.wf_writeCell hwf, State.faultOk_of_run_ne (by simp [hidle])⟩
  · exact ⟨hwf, State.faultOk_of_run_ne (by simp)⟩

end Sys2Proof.Machine

namespace Sys2Proof.Machine

/-! ## Run-reset, `load` and the exit codes (70_reset_and_hazards.md, 60_exceptions.md section 6) -/

/-! ### The inputs -/

/-- R21: during a run every input is refused. -/
theorem exists_refused_of_running (e : HostEvent) {s : State} (hs : s.run = .running) :
    ∃ r, hostStep e s = .refused r := by
  cases e <;> simp only [hostStep, hs] <;> exact ⟨_, rfl⟩

/-- R151: from IDLE, HALTED and FAULTED alike. -/
theorem hostStep_runReset {s : State} (hs : s.run ≠ .running) :
    hostStep .runReset s = .next s.runReset := by
  cases hrun : s.run with
  | running => exact absurd hrun hs
  | idle | halted | faulted r => simp only [hostStep, hrun]

/-- R139: an idle machine takes the whole cell. -/
theorem hostStep_load {s : State} (hs : s.run = .idle) (a : Addr) (w : CellWord) :
    hostStep (.load a w) s = .next (s.setMem (s.mem.writeCell a w)) := by
  simp only [hostStep, hs]

/-- R139: a machine that is not idle takes no load. -/
theorem hostStep_load_refused {s : State} (hs : s.run ≠ .idle) (a : Addr) (w : CellWord) :
    hostStep (.load a w) s = .refused .loadWhileNotIdle := by
  cases hrun : s.run with
  | idle => exact absurd hrun hs
  | running | halted | faulted r => simp only [hostStep, hrun]

/-! ### The boot sequence -/

/-- R68: after a load-time fault the machine is not started, in either mode. -/
theorem boot_of_load_error {text : List Char} {e : LoadError} (h : load text = .error e)
    (mode : BootMode) : boot text mode = .loadFailed e := by
  simp only [boot, h]

/-- R71: dump mode lists the memory that was loaded. -/
theorem boot_dump {text : List Char} {l : Loader} (h : load text = .ok l) :
    boot text .dump = .dumped (dump l.mem) := by
  simp only [boot, h]

/-- R153: execute mode starts the machine on the memory that was loaded. -/
theorem boot_execute {text : List Char} {l : Loader} (h : load text = .ok l) :
    boot text .execute = .started (State.powerOn.setMem l.mem).runReset := by
  simp only [boot, h]

/-- A started machine runs on the memory of a load that succeeded. -/
theorem boot_started {text : List Char} {s : State} (h : boot text .execute = .started s) :
    ∃ l, load text = .ok l ∧ s = (State.powerOn.setMem l.mem).runReset := by
  cases hl : load text with
  | error e => simp [boot_of_load_error hl] at h
  | ok l =>
    rw [boot_execute hl] at h
    injection h with h
    exact ⟨l, rfl, h.symm⟩

/-! ### The obligations -/

/-- Settles O47: run-reset outside a run, its refusal during one, and its effect after power-on. -/
theorem runResetKeepsMemoryOnly : Obligations.RunResetKeepsMemoryOnly := by
  refine ⟨fun s hs => ⟨_, hostStep_runReset hs, rfl⟩, fun s hs => ?_, rfl⟩
  simp only [hostStep, hs]

/-- Settles O48: the accepted load is a cell write, and any other is refused. -/
theorem loadIsAcceptedOnlyWhileIdle : Obligations.LoadIsAcceptedOnlyWhileIdle := by
  intro a w s
  refine ⟨fun hs => ?_, fun hs => hostStep_load_refused hs a w⟩
  refine ⟨_, hostStep_load hs a w, Memory.readCell_writeCell_same, fun b hb => ?_⟩
  exact Memory.readCell_writeCell_ne s.mem hb

/-- Settles O49: where the boot sequence ends decides the exit code, and a started machine is RUNNING. -/
theorem exitCodes : Obligations.ExitCodes := by
  refine ⟨fun r => ⟨rfl, rfl, rfl⟩, fun text => ⟨fun e he mode => ?_, fun l hl => ⟨?_, ?_⟩⟩⟩
  · rw [boot_of_load_error he]
    rfl
  · rw [boot_dump hl]
    rfl
  · rw [boot_execute hl]
    rfl

/-- Settles O60: an accepted input found the machine outside a run, and a load found it idle; conversely
each input has its answer there. -/
theorem hostActsOnlyOutsideARun : Obligations.HostActsOnlyOutsideARun := by
  intro e s
  refine ⟨exists_refused_of_running e, ?_, ?_⟩
  · rintro ⟨t, ht⟩
    obtain ⟨hrun, ⟨rfl, -⟩ | ⟨a, w, rfl, hidle, -⟩ | ⟨rfl, -⟩⟩ := hostStep_cases ht
    · exact ⟨hrun, by simp⟩
    · exact ⟨hrun, fun _ _ _ => hidle⟩
    · exact ⟨hrun, by simp⟩
  · rintro ⟨hrun, hload⟩
    cases e with
    | powerOn => exact ⟨_, hostStep_powerOn hrun⟩
    | load a w => exact ⟨_, hostStep_load (hload a w rfl) a w⟩
    | runReset => exact ⟨_, hostStep_runReset hrun⟩

end Sys2Proof.Machine

namespace Sys2Proof.Machine

/-! ## What an instruction writes and what it reads (10_state.md sections 2 and 5, 20_memory.md section 3)

Writers by the list of effects; readers by running one instruction from two states that differ in what it
should not read. -/

/-! ### Writers -/

/-- R11: the six writers of `acc`. -/
theorem Effect.acc_eq_or_writer {s t : State} {i : Instr} (h : Effect s i t) :
    t.acc = s.acc ∨
      ∃ n, i = .ldc n ∨ i = .lda n ∨ i = .add n ∨ i = .sub n ∨ i = .neg n ∨ i = .and n := by
  cases h with
  | ldc n | lda n | add n | sub n | neg n | and n => exact .inr ⟨n, by simp⟩
  | _ => exact .inl rfl

/-- R13: the three writers of `cond`. -/
theorem Effect.cond_eq_or_comparison {s t : State} {i : Instr} (h : Effect s i t) :
    t.cond = s.cond ∨ ∃ n, i = .cmpe n ∨ i = .cmpgr n ∨ i = .cmple n := by
  cases h with
  | cmpe n | cmpgr n | cmple n => exact .inr ⟨n, by simp⟩
  | _ => exact .inl rfl

/-- R17: the two writers of the output. -/
theorem Effect.out_eq {s t : State} {i : Instr} (h : Effect s i t)
    (hi : ∀ n, i ≠ .print n ∧ i ≠ .pout n) : t.out = s.out := by
  cases h with
  | print n => exact absurd rfl (hi n).1
  | pout n => exact absurd rfl (hi n).2
  | _ => rfl

/-- R12: all but the jumps leave `pc` at the next cell. -/
theorem Effect.pc_eq {s t : State} {i : Instr} (h : Effect s i t) (hjmp : ∀ n, i ≠ .jmp n)
    (hjc : ∀ n, i ≠ .jc n) : t.pc = s.pc + 1 := by
  cases h with
  | jmp n => exact absurd rfl (hjmp n)
  | jcTaken n | jcUntaken n => exact absurd rfl (hjc n)
  | _ => rfl

/-! ### Readers: two states that an instruction cannot tell apart -/

/-- All that instructions other than `jc` read: `acc`, `pc` and the operand fields; `run` is carried over. -/
structure SameInputs (s s' : State) : Prop where
  acc : s'.acc = s.acc
  pc : s'.pc = s.pc
  run : s'.run = s.run
  data : ∀ a, s'.readData a = s.readData a

/-- `t'` comes from `s'` by the change that leads from `s` to `t`: the same registers and run state, the same
events appended, the same data word stored, if any. -/
structure SameChange (s t s' t' : State) : Prop where
  acc : t'.acc = t.acc
  pc : t'.pc = t.pc
  run : t'.run = t.run
  cond : (t.cond = s.cond ∧ t'.cond = s'.cond) ∨ t'.cond = t.cond
  mem : (t.mem = s.mem ∧ t'.mem = s'.mem) ∨
    ∃ a v, t.mem = s.mem.writeData a v ∧ t'.mem = s'.mem.writeData a v
  out : ∃ events, t.out = s.out ++ events ∧ t'.out = s'.out ++ events

/-- Two meanings answer next states that come by the same change. -/
def SameAnswer (s s' : State) (o o' : Result) : Prop :=
  ∃ t t', o = .next t ∧ o' = .next t' ∧ SameChange s t s' t'

theorem SameChange.answer {s t s' t' : State} (h : SameChange s t s' t') :
    SameAnswer s s' (.next t) (.next t') :=
  ⟨t, t', rfl, rfl, h⟩

section
variable {s s' : State} (h : SameInputs s s')
include h

theorem SameInputs.advance : SameChange s s.advance s' s'.advance :=
  ⟨h.acc, congrArg (· + 1) h.pc, h.run, .inl ⟨rfl, rfl⟩, .inl ⟨rfl, rfl⟩, [], by simp⟩

theorem SameInputs.setAcc (v : Byte) : SameChange s (s.advance.setAcc v) s' (s'.advance.setAcc v) :=
  { h.advance with acc := rfl }

theorem SameInputs.setPc (a : Addr) : SameChange s (s.advance.setPc a) s' (s'.advance.setPc a) :=
  { h.advance with pc := rfl }

theorem SameInputs.setRun (r : RunState) : SameChange s (s.advance.setRun r) s' (s'.advance.setRun r) :=
  { h.advance with run := rfl }

theorem SameInputs.compare (b : Bool) : SameChange s (s.compare b) s' (s'.compare b) :=
  { h.advance with cond := .inr rfl }

theorem SameInputs.writeData (a : Addr) :
    SameChange s (s.advance.writeData a s.acc) s' (s'.advance.writeData a s'.acc) :=
  { h.advance with mem := .inr ⟨a, s.acc, rfl, by rw [h.acc]; rfl⟩ }

theorem SameInputs.emit (ch : Channel) : SameChange s (s.advance.emit ch) s' (s'.advance.emit ch) :=
  { h.advance with out := ⟨[⟨ch, s.acc⟩], rfl, by simp [h.acc]⟩ }

theorem SameInputs.raise (k : FaultKind) (sub : SubCause) :
    SameChange s (s.raise k sub) s' (s'.raise k sub) :=
  { h.advance with run := by rw [State.raise_run, State.raise_run, h.pc] }

theorem SameInputs.arith (result : Option Byte) (sub : SubCause) :
    SameChange s (s.arith result sub) s' (s'.arith result sub) := by
  cases result with
  | none => exact h.raise .overflowUnderflow sub
  | some v => exact h.setAcc v

theorem SameInputs.withAddress (n : Byte) {k k' : Addr → State}
    (hk : ∀ a, SameChange s (k a) s' (k' a)) :
    SameAnswer s s' (withAddress n s k) (withAddress n s' k') := by
  cases hn : checkAddr n with
  | some a =>
    rw [withAddress_some hn, withAddress_some hn]
    exact (hk a).answer
  | none =>
    rw [withAddress_none (checkAddr_none.1 hn), withAddress_none (checkAddr_none.1 hn)]
    exact (h.raise .illegalAddress .none).answer

theorem SameInputs.withData (n : Byte) {k k' : Byte → State}
    (hk : ∀ d, SameChange s (k d) s' (k' d)) :
    SameAnswer s s' (withData n s k) (withData n s' k') :=
  h.withAddress n fun a => by
    rw [h.data a]
    exact hk (s.readData a)

/-- An instruction makes the same change from states with the same inputs; `jc` reads `cond` as well. -/
theorem SameInputs.exec (i : Instr) (hcond : (∃ n, i = .jc n) → s'.cond = s.cond) :
    SameAnswer s s' (exec i s) (exec i s') := by
  cases i with
  | data n | sleep n => exact h.advance.answer
  | hlt n => exact (h.setRun .halted).answer
  | print n => exact (h.emit .print).answer
  | pout n => exact (h.emit .pout).answer
  | ldc n => exact (h.setAcc n).answer
  | neg n => rw [exec_neg, exec_neg, h.acc]; exact (h.setAcc _).answer
  | lda n => exact h.withData n h.setAcc
  | sta n => exact h.withAddress n h.writeData
  | add n => rw [exec_add, exec_add, h.acc]; exact h.withData n fun _ => h.arith _ _
  | sub n => rw [exec_sub, exec_sub, h.acc]; exact h.withData n fun _ => h.arith _ _
  | and n => rw [exec_and, exec_and, h.acc]; exact h.withData n fun _ => h.setAcc _
  | cmpe n => rw [exec_cmpe, exec_cmpe, h.acc]; exact h.withData n fun _ => h.compare _
  | cmpgr n => rw [exec_cmpgr, exec_cmpgr, h.acc]; exact h.withData n fun _ => h.compare _
  | cmple n => rw [exec_cmple, exec_cmple, h.acc]; exact h.withData n fun _ => h.compare _
  | jmp n => exact h.withAddress n h.setPc
  | jc n =>
    have hsame := hcond ⟨n, rfl⟩
    cases hc : s.cond with
    | true =>
      rw [exec_jc_true hc, exec_jc_true (hsame.trans hc)]
      exact h.withAddress n h.setPc
    | false =>
      rw [exec_jc_false hc, exec_jc_false (hsame.trans hc)]
      exact h.advance.answer

theorem SameInputs.exec_next {t : State} {i : Instr} (hcond : (∃ n, i = .jc n) → s'.cond = s.cond)
    (ht : Machine.exec i s = .next t) : ∃ t', Machine.exec i s' = .next t' ∧ SameChange s t s' t' := by
  obtain ⟨u, t', hu, ht', hc⟩ := h.exec i hcond
  obtain rfl : u = t := by
    rw [hu] at ht
    injection ht
  exact ⟨t', ht', hc⟩

end

/-- States are equal when their fields are. -/
theorem State.eq_of_fields {s t : State} (hacc : s.acc = t.acc) (hpc : s.pc = t.pc)
    (hcond : s.cond = t.cond) (hrun : s.run = t.run) (hmem : s.mem = t.mem) (hout : s.out = t.out) :
    s = t := by
  cases s
  cases t
  simp_all

/-- From the same memory, the same change leads to the same memory. -/
theorem SameChange.mem_eq {s t s' t' : State} (h : SameChange s t s' t') (hs : s'.mem = s.mem) :
    t'.mem = t.mem := by
  obtain ⟨hmem, hmem'⟩ | ⟨a, v, hmem, hmem'⟩ := h.mem <;> rw [hmem, hmem', hs]

/-- From the same flag, the same change leads to the same flag. -/
theorem SameChange.cond_eq {s t s' t' : State} (h : SameChange s t s' t') (hs : s'.cond = s.cond) :
    t'.cond = t.cond := by
  obtain ⟨hcond, hcond'⟩ | hcond := h.cond
  · rw [hcond, hcond', hs]
  · exact hcond

/-- From the same output, the same change leads to the same output. -/
theorem SameChange.out_eq {s t s' t' : State} (h : SameChange s t s' t') (hs : s'.out = s.out) :
    t'.out = t.out := by
  obtain ⟨events, hout, hout'⟩ := h.out
  rw [hout, hout', hs]

/-- What was written before makes no difference: the same change, after an earlier output. -/
theorem SameChange.eq_with_earlier {s t t' : State} {earlier : List OutEvent}
    (h : SameChange s t { s with out := earlier ++ s.out } t') :
    t' = { t with out := earlier ++ t.out } := by
  refine State.eq_of_fields h.acc h.pc (h.cond_eq rfl) h.run (h.mem_eq rfl) ?_
  obtain ⟨events, hout, hout'⟩ := h.out
  rw [hout', hout, List.append_assoc]

/-! ### `cond` and the comparisons -/

/-- A comparison at a legal address forgets the old flag; one that faults carries it over. -/
theorem withData_compare_setCond {n : Byte} {s t : State} {test : Byte → Bool} (b : Bool)
    (h : (withData n s fun d => s.compare (test d)) = .next t) :
    (withData n (s.setCond b) fun d => (s.setCond b).compare (test d)) =
      .next (if n.toNat ≤ 127 then t else { t with cond := b }) := by
  by_cases hn : n.toNat ≤ 127
  · obtain ⟨a, ha⟩ := exists_checkAddr hn
    rw [withData_compare ha] at h
    cases h
    rw [withData_compare ha, if_pos hn]
    rfl
  · rw [withData_none (by omega)] at h
    cases h
    rw [withData_none (by omega), if_neg hn]
    rfl

/-! ### The obligations -/

/-- Settles O31: by the writers of `acc`. -/
theorem accWrittenOnlyByItsSix : Obligations.AccWrittenOnlyByItsSix :=
  fun _ _ _ h hne => (exec_effect h).acc_eq_or_writer.resolve_left hne

/-- Settles O32: the writers of `cond`; a comparison sets it from its test alone; and every other
instruction makes the same change, none of it to `cond`, from states that differ in `cond` only. -/
theorem condWrittenByComparisonsReadByJc : Obligations.CondWrittenByComparisonsReadByJc := by
  refine ⟨fun i s t h hne => (exec_effect h).cond_eq_or_comparison.resolve_left hne, ?_, ?_⟩
  · rintro i n s t b (rfl | rfl | rfl) h <;> exact withData_compare_setCond b h
  · intro i s t b hi h
    have hnocmp : ¬∃ n, i = .cmpe n ∨ i = .cmpgr n ∨ i = .cmple n := by
      rintro ⟨n, hn⟩
      obtain ⟨-, hcmpe, hcmpgr, hcmple⟩ := hi n
      simp [hcmpe, hcmpgr, hcmple] at hn
    have hinputs : SameInputs s { s with cond := b } := ⟨rfl, rfl, rfl, fun _ => rfl⟩
    obtain ⟨t', ht', hc⟩ := hinputs.exec_next (fun ⟨n, hn⟩ => absurd hn (hi n).1) h
    have hkeep : t'.cond = b := (exec_effect ht').cond_eq_or_comparison.resolve_right hnocmp
    rw [ht']
    exact congrArg _ (State.eq_of_fields hc.acc hc.pc hkeep hc.run (hc.mem_eq rfl) (hc.out_eq rfl))

/-- Settles O33: by the writers of the output, and because the fetch and the instruction make the same change
after any earlier output. -/
theorem outputIsAppendOnlyAndWriteOnly : Obligations.OutputIsAppendOnlyAndWriteOnly := by
  refine ⟨fun n s t h => ?_, fun n s t h => ?_, fun i s t hi h => (exec_effect h).out_eq hi, ?_⟩
  · cases h
    rfl
  · cases h
    rfl
  · intro s t earlier h
    have hinputs : SameInputs s { s with out := earlier ++ s.out } := ⟨rfl, rfl, rfl, fun _ => rfl⟩
    obtain ⟨hs, ⟨i, hi, he⟩ | ⟨⟨e, he⟩, rfl⟩⟩ := step_cases h
    · obtain ⟨t', ht', hc⟩ := hinputs.exec_next (fun _ => rfl) he
      rw [← hc.eq_with_earlier, ← ht']
      exact step_of_decodeCell_ok hs hi
    · exact step_of_decodeCell_error hs he

/-- Settles O34: all but the jumps leave `pc` one cell on, and addition of addresses is modulo 128. -/
theorem pcAdvancesByOneCell : Obligations.PcAdvancesByOneCell := by
  intro i s t h hjmp hjc
  rw [(exec_effect h).pc_eq hjmp hjc, BitVec.toNat_add]
  rfl

/-- Settles O36: the operand fields are all of memory that the inputs of an instruction hold. -/
theorem opcodeFieldsAreNotReadAsData : Obligations.OpcodeFieldsAreNotReadAsData := by
  intro i s t m hm h
  have hinputs : SameInputs s { s with mem := m } := by
    refine ⟨rfl, rfl, rfl, fun a => ?_⟩
    rw [State.readData, State.readData, Memory.readData_eq, Memory.readData_eq, hm a]
  obtain ⟨t', ht', hc⟩ := hinputs.exec_next (fun _ => rfl) h
  refine ⟨t'.mem, ht'.trans (congrArg _ ?_)⟩
  exact State.eq_of_fields hc.acc hc.pc (hc.cond_eq rfl) hc.run rfl (hc.out_eq rfl)

end Sys2Proof.Machine

namespace Sys2Proof.Machine

/-! ## The loader's parts (30_encoding.md section 5)

The name lookup, the decimal literals, the write, and what each part answers where it fails. -/

/-! ### Name lookup -/

/-- The index a search answers is the index of a slot with the name. -/
theorem findName_some {name : List Char} {j k : Nat} {slots : List Slot}
    (h : findName name j slots = some k) :
    j ≤ k ∧ ∃ b, slots[k - j]? = some (.named name b) := by
  induction slots generalizing j with
  | nil => simp [findName] at h
  | cons slot rest ih =>
    have hrest (hr : findName name (j + 1) rest = some k) :
        j ≤ k ∧ ∃ b, (slot :: rest)[k - j]? = some (.named name b) := by
      obtain ⟨hjk, b, hb⟩ := ih hr
      have hidx : k - j = (k - (j + 1)) + 1 := by omega
      exact ⟨by omega, b, by rw [hidx, List.getElem?_cons_succ, hb]⟩
    cases slot with
    | reserved => exact hrest h
    | named nm b =>
      rw [findName] at h
      split at h
      · subst nm
        cases h
        exact ⟨le_rfl, b, by simp⟩
      · exact hrest h

/-- R64: the search of the opcode map answers exactly the index of the slot with the name; no two slots carry
the same one. -/
theorem findName_opcodeTable_iff {name : List Char} {k : Nat} :
    findName name 0 opcodeTable = some k ↔ ∃ b, opcodeTable[k]? = some (.named name b) := by
  constructor
  · exact fun h => (findName_some h).2
  · rintro ⟨b, hb⟩
    have hk : k < 19 := (List.getElem?_eq_some_iff.1 hb).1
    interval_cases k <;> simp [opcodeTable] at hb <;> obtain ⟨rfl, -⟩ := hb <;> rfl

theorem lookup_eq_some_iff {name : List Char} {op : Byte} :
    lookup name = some op ↔ ∃ b, slotOf op = some (.named (name.map toLower) b) := by
  rw [lookup, Option.map_eq_some_iff, slotOf, ← findName_opcodeTable_iff]
  constructor
  · rintro ⟨k, hk, rfl⟩
    obtain ⟨b, hb⟩ := findName_opcodeTable_iff.1 hk
    have hlt : k < 19 := (List.getElem?_eq_some_iff.1 hb).1
    rwa [BitVec.toNat_ofNat, Nat.mod_eq_of_lt (by omega)]
  · exact fun h => ⟨op.toNat, h, by simp⟩

/-- R64: no name gives an unnamed opcode. -/
theorem lookup_named {name : List Char} {op : Byte} (h : lookup name = some op) :
    op.toNat ≤ 15 ∨ op.toNat = 18 := by
  obtain ⟨b, hb⟩ := lookup_eq_some_iff.1 h
  exact (exists_slotOf_named_iff op).1 ⟨_, b, hb⟩

theorem isUpper_iff {c : Char} : isUpper c = true ↔ 65 ≤ c.toNat ∧ c.toNat ≤ 90 := by
  rw [isUpper, Bool.and_eq_true, decide_eq_true_eq, decide_eq_true_eq]

/-- R58: the lower case of an ASCII letter is 32 codes on. -/
theorem toNat_toLower_of_upper {c : Char} (h : 65 ≤ c.toNat ∧ c.toNat ≤ 90) :
    (toLower c).toNat = c.toNat + 32 := by
  rw [toLower, if_pos (isUpper_iff.2 h), Char.toNat_ofNat, if_pos (.inl (by omega))]

/-- R58: every other character is its own lower case. -/
theorem toLower_of_not_upper {c : Char} (h : ¬(65 ≤ c.toNat ∧ c.toNat ≤ 90)) : toLower c = c :=
  if_neg (mt isUpper_iff.1 h)

/-! ### Decimal literals -/

/-- The character after a literal, if there is one, is no digit. -/
theorem takeDigits_append {n : Nat} {ds rest : List Char} (hds : ∀ c ∈ ds, isDigit c = true)
    (hrest : ∀ c cs, rest = c :: cs → isDigit c = false) :
    takeDigits n (ds ++ rest) = (ds.foldl (fun n c => n * 10 + (c.toNat - 48)) n, rest) := by
  induction ds generalizing n with
  | nil =>
    cases rest with
    | nil => rfl
    | cons c cs => simp [takeDigits, hrest c cs rfl]
  | cons d ds ih =>
    obtain ⟨hd, hds⟩ := List.forall_mem_cons.1 hds
    rw [List.cons_append, takeDigits, if_pos hd, ih hds, List.foldl_cons]

/-- R59: a literal is the longest run of digits, and its value is unbounded. -/
theorem parseDecimal_digits (la : Nat) {ds rest : List Char} (hne : ds ≠ [])
    (hds : ∀ c ∈ ds, isDigit c = true) (hrest : ∀ c cs, rest = c :: cs → isDigit c = false) :
    parseDecimal la (ds ++ rest) = .ok (digitsValue ds, rest) := by
  obtain ⟨d, ds', rfl⟩ := List.exists_cons_of_ne_nil hne
  have hd : isDigit d = true := hds d (by simp)
  rw [digitsValue, ← takeDigits_append hds hrest, List.cons_append, parseDecimal, if_pos hd]

/-- R61: where a digit is expected, another character is named. -/
theorem parseDecimal_not_digit (la : Nat) {c : Char} (cs : List Char) (hc : isDigit c = false) :
    parseDecimal la (c :: cs) = .error ⟨.inputMistake, la, .unexpected (some c)⟩ := by
  simp [parseDecimal, hc]

/-- R65: after one space the operand is a literal of at most 255. -/
theorem parseOperand_space (la : Nat) (cs : List Char) :
    parseOperand la (' ' :: cs) =
      match parseDecimal la cs with
      | .error e => .error e
      | .ok (n, rest) =>
        if Config.operandMax < n then .error ⟨.invalidOperand, la, .literal n⟩ else .ok (n, rest) :=
  rfl

/-- R65: without the space there is no operand to read. -/
theorem parseOperand_no_space (la : Nat) {cs : List Char} (h : ∀ rest, cs ≠ ' ' :: rest) :
    parseOperand la cs = .ok (0, cs) := by
  cases cs with
  | nil => rfl
  | cons c cs =>
    have hc : c.toNat ≠ 32 := fun h32 => h cs (congrArg (· :: cs) (Char.toNat_inj.1 h32))
    rw [parseOperand, if_neg hc]

/-- R61: the character `@` begins a directive. -/
theorem loadItem_at (l : Loader) (cs : List Char) : loadItem l '@' cs = loadDirective l cs := rfl

/-! ### The write -/

/-- R66: below 128 the whole cell is written at the load address. -/
theorem placeInstr_of_le {l : Loader} (h : l.la ≤ 127) (op : Byte) (n : Nat) (rest : List Char) :
    placeInstr l op n rest =
      .ok { chars := discardLine rest
            la := l.la + 1
            mem := l.mem.writeCell (BitVec.ofNat 7 l.la) (packCell op (BitVec.ofNat 8 n)) } :=
  if_neg (Nat.not_lt.2 h)

/-- R66, D12: at load address 128 there is no room. -/
theorem placeInstr_of_lt {l : Loader} (h : 127 < l.la) (op : Byte) (n : Nat) (rest : List Char) :
    placeInstr l op n rest = .error ⟨.illegalAddress, l.la, .noRoom⟩ :=
  if_pos h

/-- R63: a mnemonic that the table does not have is IllegalOpcode. -/
theorem loadInstr_of_lookup_none {l : Loader} {cs : List Char} (h : lookup (takeAlpha cs).1 = none) :
    loadInstr l cs = .error ⟨.illegalOpcode, l.la, .mnemonic (takeAlpha cs).1⟩ := by
  simp only [loadInstr, h]

/-! ### Load-time faults -/

/-- The fault is of one of the loader's kinds and names the load address (R68, R120). -/
def LoadError.madeAt (e : LoadError) (la : Nat) : Prop :=
  (e.kind = .inputMistake ∨ e.kind = .illegalOpcode ∨ e.kind = .illegalAddress ∨
    e.kind = .invalidOperand) ∧ e.la = la

theorem parseDecimal_error {la : Nat} {cs : List Char} {e : LoadError}
    (h : parseDecimal la cs = .error e) : e.madeAt la := by
  unfold parseDecimal at h
  split at h
  · cases h
    exact ⟨.inl rfl, rfl⟩
  · split at h
    · cases h
    · cases h
      exact ⟨.inl rfl, rfl⟩

theorem parseOperand_error {la : Nat} {cs : List Char} {e : LoadError}
    (h : parseOperand la cs = .error e) : e.madeAt la := by
  unfold parseOperand at h
  split at h
  · cases h
  · split at h
    · split at h
      · cases h
        exact parseDecimal_error ‹_›
      · split at h
        · cases h
          exact ⟨.inr (.inr (.inr rfl)), rfl⟩
        · cases h
    · cases h

theorem loadDirective_error {l : Loader} {cs : List Char} {e : LoadError}
    (h : loadDirective l cs = .error e) : e.madeAt l.la := by
  unfold loadDirective at h
  split at h
  · cases h
    exact parseDecimal_error ‹_›
  · split at h
    · cases h
      exact ⟨.inr (.inr (.inl rfl)), rfl⟩
    · cases h

theorem placeInstr_error {l : Loader} {op : Byte} {n : Nat} {rest : List Char} {e : LoadError}
    (h : placeInstr l op n rest = .error e) : e.madeAt l.la := by
  unfold placeInstr at h
  split at h
  · cases h
    exact ⟨.inr (.inr (.inl rfl)), rfl⟩
  · cases h

theorem loadInstr_error {l : Loader} {cs : List Char} {e : LoadError}
    (h : loadInstr l cs = .error e) : e.madeAt l.la := by
  unfold loadInstr at h
  split at h
  · cases h
    exact ⟨.inr (.inl rfl), rfl⟩
  · split at h
    · cases h
      exact parseOperand_error ‹_›
    · exact placeInstr_error h

theorem loadItem_error {l : Loader} {c : Char} {cs : List Char} {e : LoadError}
    (h : loadItem l c cs = .error e) : e.madeAt l.la := by
  unfold loadItem at h
  split at h
  · exact loadDirective_error h
  · split at h
    · cases h
    · exact loadInstr_error h

/-! ### The obligations -/

/-- Settles O50: the search of the table, whose named slots are those of the decoder; the lower case by the
codes of the letters. -/
theorem lookupIsCaseInsensitiveExactMatch : Obligations.LookupIsCaseInsensitiveExactMatch := by
  refine ⟨fun name op => lookup_eq_some_iff, fun c => ?_, fun name op => lookup_named, by decide, ?_⟩
  · split
    · exact toNat_toLower_of_upper ‹_›
    · exact toLower_of_not_upper ‹_›
  · exact fun l cs h => ⟨_, loadInstr_of_lookup_none h, rfl⟩

/-- Settles O51: after the space stands a literal, which is parsed and then compared with 255. -/
theorem operandIsDecimalUpTo255 : Obligations.OperandIsDecimalUpTo255 := by
  refine ⟨fun la ds rest hne hds hrest => ?_, fun la c cs hc => ?_, fun la => rfl,
    fun la cs => parseOperand_no_space la⟩
  · rw [List.cons_append, parseOperand_space, parseDecimal_digits la hne hds hrest]
    simp only [Config.operandMax, ← not_le, ite_not]
  · rw [parseOperand_space, parseDecimal_not_digit la cs hc]

/-- Settles O52: after the `@` stands a literal, which is parsed and then compared with 127. -/
theorem directiveSetsTheLoadAddress : Obligations.DirectiveSetsTheLoadAddress := by
  refine ⟨fun l ds rest hne hds hrest => ?_, fun l c cs hc => ?_, fun l => rfl⟩
  · rw [loadItem_at, loadDirective, parseDecimal_digits l.la hne hds hrest]
    simp only [Config.addrMax, ← not_le, ite_not]
  · rw [loadItem_at, loadDirective, parseDecimal_not_digit l.la cs hc]

/-- Settles O53: the write of a whole cell, where there is room. -/
theorem loaderWritesWholeCellAndChecksThere : Obligations.LoaderWritesWholeCellAndChecksThere := by
  intro l op n rest
  refine ⟨fun a ha => ?_, fun hla => placeInstr_of_lt hla op n.toNat rest⟩
  have hroom : l.la ≤ 127 := by omega
  refine ⟨_, placeInstr_of_le hroom op n.toNat rest, rfl, rfl, ?_⟩
  rw [ha, BitVec.ofNat_toNat, BitVec.ofNat_toNat, BitVec.setWidth_eq, BitVec.setWidth_eq]
  exact ⟨Memory.readCell_writeCell_same, fun b => Memory.readCell_writeCell_ne l.mem⟩

end Sys2Proof.Machine

namespace Sys2Proof.Machine

/-! ## Whole loads (30_encoding.md section 5, 10_state.md section 4)

What every load keeps, where it can fail, and that a machine booted from a load never meets an unnamed
opcode. -/

/-! ### What every load keeps -/

/-- Memory is canonical and holds instructions only, and the load address is at most 128 (R66, R70). -/
def Loader.Good (l : Loader) : Prop :=
  l.mem.wf = true ∧ l.la ≤ 128 ∧ ∀ a, namedCell (l.mem.readCell a) = true

theorem Loader.fresh_good (text : List Char) : (Loader.fresh text).Good :=
  ⟨rfl, Nat.zero_le 128, namedCell_readCell_nil⟩

/-- The unread characters are no part of it. -/
theorem Loader.Good.with_chars {l : Loader} (h : l.Good) (cs : List Char) :
    Loader.Good { l with chars := cs } :=
  h

/-- The cell of a named opcode holds an instruction (R55). -/
theorem namedCell_packCell {op : Byte} (h : op.toNat ≤ 15 ∨ op.toNat = 18) (n : Byte) :
    namedCell (packCell op n) = true := by
  rw [namedCell_iff, exists_decodeCell_ok_iff, opcodeOf_packCell]
  exact h

/-- A canonical memory of instructions stays one when the cell of an instruction is written. -/
theorem namedCell_readCell_writeCell {m : Memory} {w : CellWord} (hm : m.wf = true)
    (hcells : ∀ a, namedCell (m.readCell a) = true) (hw : namedCell w = true) (a b : Addr) :
    namedCell ((m.writeCell a w).readCell b) = true := by
  by_cases hab : b = a
  · rw [hab, Memory.readCell_writeCell_same hm]
    exact hw
  · rw [Memory.readCell_writeCell_ne m hab]
    exact hcells b

/-- R61 to R67: a directive moves the load address within 0 to 127, a comment is skipped, and an instruction
is written under an opcode that has a name. -/
theorem Loader.Good.loadItem {l l' : Loader} {c : Char} {cs : List Char} (h : l.Good)
    (hitem : Machine.loadItem l c cs = .ok l') : l'.Good := by
  obtain ⟨hwf, hla, hcells⟩ := h
  unfold Machine.loadItem at hitem
  split at hitem
  · obtain ⟨n, rest, -, hn, rfl⟩ := loadDirective_ok hitem
    exact ⟨hwf, hn.trans (by decide), hcells⟩
  · split at hitem
    · cases hitem
      exact ⟨hwf, hla, hcells⟩
    · obtain ⟨op, n, rest, hop, -, hplace⟩ := loadInstr_ok hitem
      obtain ⟨hroom, rfl⟩ := placeInstr_ok hplace
      have hnamed := namedCell_packCell (lookup_named hop) (BitVec.ofNat 8 n)
      exact ⟨Memory.wf_writeCell hwf, Nat.succ_le_succ hroom,
        namedCell_readCell_writeCell hwf hcells hnamed _⟩

theorem Loader.Good.loadLoop {fuel : Nat} {l l' : Loader} (h : l.Good)
    (hloop : Machine.loadLoop fuel l = .ok l') : l'.Good := by
  induction fuel generalizing l with
  | zero =>
    cases hloop
    exact h
  | succ fuel ih =>
    rw [Machine.loadLoop] at hloop
    split at hloop
    · cases hloop
      exact h.with_chars []
    · split at hloop
      · cases hloop
      · exact ih (h.loadItem ‹_›) hloop

/-- A load fails in one of its items, at a load address the loader can have. -/
theorem Loader.Good.loadLoop_error {fuel : Nat} {l : Loader} {e : LoadError} (h : l.Good)
    (hloop : Machine.loadLoop fuel l = .error e) : ∃ la ≤ 128, e.madeAt la := by
  induction fuel generalizing l with
  | zero => cases hloop
  | succ fuel ih =>
    rw [Machine.loadLoop] at hloop
    split at hloop
    · cases hloop
    · split at hloop
      · cases hloop
        obtain ⟨-, hla, -⟩ := h
        exact ⟨l.la, hla, loadItem_error ‹_›⟩
      · exact ih (h.loadItem ‹_›) hloop

theorem load_good {text : List Char} {l : Loader} (h : load text = .ok l) : l.Good :=
  (Loader.fresh_good text).loadLoop h

theorem load_error {text : List Char} {e : LoadError} (h : load text = .error e) :
    ∃ la ≤ 128, e.madeAt la :=
  (Loader.fresh_good text).loadLoop_error h

/-! ### Runs -/

/-- A run of `k + 1` steps that does not stop is a step and a run of `k`. -/
theorem coreRun_succ_next {M : Host.Core} {k : Nat} {s t : M.State}
    (h : M.run (k + 1) s = .next t) : ∃ u, M.step s = .next u ∧ M.run k u = .next t := by
  rw [Host.Core.run] at h
  split at h
  · exact ⟨_, ‹_›, h⟩
  · cases h
  · cases h

/-- What every step keeps holds after any number of steps. -/
theorem coreRun_keeps {M : Host.Core} {P : M.State → Prop}
    (hstep : ∀ s t, P s → M.step s = .next t → P t) {k : Nat} {s t : M.State} (hs : P s)
    (h : M.run k s = .next t) : P t := by
  induction k generalizing s with
  | zero =>
    cases h
    exact hs
  | succ k ih =>
    obtain ⟨u, hu, hrun⟩ := coreRun_succ_next h
    exact ih (hstep s u hs hu) hrun

/-- Canonical memory, an instruction in every cell, and no fault but the two an instruction raises. -/
def State.OnlyInstrFaults (s : State) : Prop :=
  s.mem.wf = true ∧ s.AllNamed ∧
    ∀ r, s.run = .faulted r → r.kind = .illegalAddress ∨ r.kind = .overflowUnderflow

theorem step_keeps_onlyInstrFaults (s t : State) (hs : s.OnlyInstrFaults) (h : step s = .next t) :
    t.OnlyInstrFaults := by
  obtain ⟨hwf, hnamed, -⟩ := hs
  exact ⟨step_mem_wf hwf h, step_allNamed hwf hnamed h, fun r => step_fault_kind hnamed h⟩

theorem boot_started_onlyInstrFaults {text : List Char} {s : State}
    (h : boot text .execute = .started s) : s.OnlyInstrFaults := by
  obtain ⟨l, hl, rfl⟩ := boot_started h
  obtain ⟨hwf, -, hcells⟩ := load_good hl
  exact ⟨hwf, hcells, fun r hr => by simp at hr⟩

/-! ### The obligations -/

/-- Settles O55: every item keeps it. -/
theorem loadedMemoryHoldsInstructionsOnly : Obligations.LoadedMemoryHoldsInstructionsOnly :=
  fun _ _ h => load_good h

/-- Settles O56: a load fails where one of its parts does, and the boot sequence ends there. -/
theorem loadFaultsAreTheLoadersFourKinds : Obligations.LoadFaultsAreTheLoadersFourKinds := by
  intro text e h
  obtain ⟨la, hla, hkind, rfl⟩ := load_error h
  exact ⟨hkind, hla, boot_of_load_error h⟩

/-- Settles O29: a step raises the kinds of the engine, a load those of the loader. -/
theorem dormantKindsAreNeverRaised : Obligations.DormantKindsAreNeverRaised := by
  refine ⟨rfl, rfl, rfl, rfl, fun s t r h ht => ?_, fun text e h => ?_⟩
  · obtain ⟨-, -, hmade⟩ := step_fault h ht
    exact not_dormant_of_engineMade hmade
  · obtain ⟨la, -, hkind, -⟩ := load_error h
    obtain hk | hk | hk | hk := hkind <;> simp [hk]

/-- Settles O57: the memory of a load holds instructions only, and every step keeps it so. -/
theorem bootedMachineNeverMeetsIllegalOpcode : Obligations.BootedMachineNeverMeetsIllegalOpcode := by
  intro text s hboot k t hrun
  have hs := boot_started_onlyInstrFaults hboot
  obtain ⟨-, -, hfault⟩ : t.OnlyInstrFaults :=
    coreRun_keeps (M := Sys2Proof.core) step_keeps_onlyInstrFaults hs hrun
  exact hfault

end Sys2Proof.Machine

namespace Sys2Proof.Machine

/-! ## The dump and the output text (30_encoding.md section 6, 10_state.md section 5) -/

/-! ### Three digits -/

theorem toNat_digitChar (d : Nat) : (digitChar d).toNat = 48 + d % 10 := by
  rw [digitChar, Char.toNat_ofNat, if_pos (.inl (by omega))]

@[simp] theorem isDigit_digitChar (d : Nat) : isDigit (digitChar d) = true := by
  rw [isDigit, toNat_digitChar, Bool.and_eq_true, decide_eq_true_eq, decide_eq_true_eq]
  omega

theorem isDigit_of_mem_threeDigits {v : Byte} : ∀ c ∈ threeDigits v, isDigit c = true := by
  simp [threeDigits]

/-- R17: the three digits are the decimal form of the byte, with leading zeros. -/
theorem digitsValue_threeDigits (v : Byte) : digitsValue (threeDigits v) = v.toNat := by
  simp only [digitsValue, threeDigits, List.foldl_cons, List.foldl_nil, toNat_digitChar]
  omega

/-- The three digits of a byte read back as it. -/
theorem takeDigits_threeDigits (v : Byte) : takeDigits 0 (threeDigits v) = (v.toNat, []) := by
  have h := takeDigits_append (n := 0) (rest := []) (isDigit_of_mem_threeDigits (v := v)) (by simp)
  rwa [List.append_nil, ← digitsValue, digitsValue_threeDigits] at h

theorem threeDigits_inj {v v' : Byte} (h : threeDigits v = threeDigits v') : v = v' := by
  have hread := takeDigits_threeDigits v
  rw [h, takeDigits_threeDigits] at hread
  exact BitVec.eq_of_toNat_eq (congrArg Prod.fst hread).symm

/-- Every byte has three digits, so the text that follows them is determined too. -/
theorem threeDigits_append_inj {v v' : Byte} {x x' : List Char}
    (h : threeDigits v ++ x = threeDigits v' ++ x') : v = v' ∧ x = x' := by
  obtain ⟨hdigits, hrest⟩ := List.append_inj h rfl
  exact ⟨threeDigits_inj hdigits, hrest⟩

/-! ### The text of the output -/

theorem digitChar_ne_o (d : Nat) : digitChar d ≠ 'o' := by
  intro h
  have := isDigit_digitChar d
  rw [h] at this
  exact absurd this (by decide)

/-- R17: the text of an event tells its channel by its first character and then its value, and no text of an
event goes on into another. -/
theorem render_append_inj {e e' : OutEvent} {x x' : List Char}
    (h : e.render ++ x = e'.render ++ x') : e = e' ∧ x = x' := by
  obtain ⟨ch, v⟩ := e
  obtain ⟨ch', v'⟩ := e'
  cases ch <;> cases ch' <;> simp only [OutEvent.render, List.append_assoc] at h
  case print.print =>
    obtain ⟨rfl, hx⟩ := threeDigits_append_inj h
    exact ⟨rfl, List.append_cancel_left hx⟩
  case pout.pout =>
    obtain ⟨rfl, hx⟩ := threeDigits_append_inj (List.append_cancel_left h)
    exact ⟨rfl, List.append_cancel_left hx⟩
  case print.pout => exact absurd (List.cons.inj h).1 (digitChar_ne_o _)
  case pout.print => exact absurd (List.cons.inj h).1.symm (digitChar_ne_o _)

theorem render_ne_nil (e : OutEvent) : e.render ≠ [] := by
  obtain ⟨ch, v⟩ := e
  cases ch <;> simp [OutEvent.render]

theorem renderOut_inj {o o' : List OutEvent} (h : renderOut o = renderOut o') : o = o' := by
  induction o generalizing o' with
  | nil =>
    cases o' with
    | nil => rfl
    | cons e' rest' => exact absurd (List.append_eq_nil_iff.1 h.symm).1 (render_ne_nil e')
  | cons e rest ih =>
    cases o' with
    | nil => exact absurd (List.append_eq_nil_iff.1 h).1 (render_ne_nil e)
    | cons e' rest' =>
      obtain ⟨rfl, hrest⟩ := render_append_inj h
      rw [ih hrest]

/-! ### The dump -/

theorem mem_allAddrs (a : Addr) : a ∈ allAddrs :=
  List.mem_map.2 ⟨a.toNat, List.mem_range.2 a.isLt, by simp⟩

theorem allAddrs_pairwise_lt : allAddrs.Pairwise fun a b => a.toNat < b.toNat := by
  rw [allAddrs, List.pairwise_map]
  refine List.Pairwise.imp_of_mem ?_ List.pairwise_lt_range
  intro i j hi hj hij
  have hi : i < 128 := List.mem_range.1 hi
  have hj : j < 128 := List.mem_range.1 hj
  simp only [BitVec.toNat_ofNat]
  omega

/-- R71: a slot is listed for a nonzero cell, with its two fields. -/
theorem dumpSlot_eq_some_iff {m : Memory} {a : Addr} {d : DumpSlot} :
    dumpSlot m a = some d ↔
      m.readCell a ≠ 0 ∧ d = ⟨a, opcodeOf (m.readCell a), operandOf (m.readCell a)⟩ := by
  rw [dumpSlot]
  split <;> simp_all [eq_comm]

/-- A cell is a packed cell exactly when its fields are those. -/
theorem eq_packCell_iff {w : CellWord} {op n : Byte} :
    w = packCell op n ↔ op = opcodeOf w ∧ n = operandOf w := by
  constructor
  · rintro rfl
    simp
  · rintro ⟨rfl, rfl⟩
    exact (packCell_fields w).symm

theorem mem_dump_iff {m : Memory} {d : DumpSlot} :
    d ∈ dump m ↔ m.readCell d.addr ≠ 0 ∧ m.readCell d.addr = packCell d.opcode d.operand := by
  rw [dump, List.mem_filterMap]
  constructor
  · rintro ⟨a, -, ha⟩
    obtain ⟨hne, rfl⟩ := dumpSlot_eq_some_iff.1 ha
    exact ⟨hne, (packCell_fields _).symm⟩
  · rintro ⟨hne, hcell⟩
    obtain ⟨hop, hn⟩ := eq_packCell_iff.1 hcell
    refine ⟨d.addr, mem_allAddrs d.addr, dumpSlot_eq_some_iff.2 ⟨hne, ?_⟩⟩
    rw [← hop, ← hn]

/-! ### The obligations -/

/-- Settles O58: the dump is the nonzero cells of all addresses, which are listed in ascending order. -/
theorem dumpListsNonzeroCellsAscending : Obligations.DumpListsNonzeroCellsAscending := by
  intro m
  refine ⟨fun d => mem_dump_iff, allAddrs_pairwise_lt.filterMap _ ?_⟩
  intro a b hab d hd e he
  obtain ⟨-, rfl⟩ := dumpSlot_eq_some_iff.1 hd
  obtain ⟨-, rfl⟩ := dumpSlot_eq_some_iff.1 he
  exact hab

/-- Settles O59: one event at a time, since the texts of the events are told apart from the front. -/
theorem renderingIsInjective : Obligations.RenderingIsInjective :=
  ⟨fun _ _ => renderOut_inj, takeDigits_threeDigits⟩

end Sys2Proof.Machine

namespace Sys2Proof.Machine

/-! ## The text of a program (30_encoding.md section 5)

The loader reads the source line of an instruction as its cell, and a program line by line. -/

/-! ### One line -/

/-- R63: the longest run of letters ends before the first character that is none. -/
theorem takeAlpha_append {name : List Char} {c : Char} {cs : List Char}
    (hname : ∀ c ∈ name, isAlpha c = true) (hc : isAlpha c = false) :
    takeAlpha (name ++ c :: cs) = (name, c :: cs) := by
  induction name with
  | nil => simp [takeAlpha, hc]
  | cons d name ih =>
    obtain ⟨hd, hname⟩ := List.forall_mem_cons.1 hname
    rw [List.cons_append, takeAlpha, if_pos hd, ih hname]

theorem isAlpha_of_mem_mnemonic (i : Instr) : ∀ c ∈ i.mnemonic, isAlpha c = true := by
  rw [← List.all_eq_true]
  cases i <;> rfl

/-- R53, R64: the mnemonic of an instruction stands for its opcode. -/
theorem lookup_mnemonic (i : Instr) : lookup i.mnemonic = some i.opcode := by
  cases i <;> rfl

/-- A letter begins no directive and no comment and is not skipped. -/
theorem loadItem_of_isAlpha (l : Loader) {c : Char} (cs : List Char) (hc : isAlpha c = true) :
    loadItem l c cs = loadInstr l (c :: cs) := by
  simp only [isAlpha, isUpper, Bool.or_eq_true, Bool.and_eq_true, decide_eq_true_eq] at hc
  rw [loadItem, if_neg (by omega), if_neg (by omega)]

theorem isSpace_of_isAlpha {c : Char} (hc : isAlpha c = true) : isSpace c = false := by
  simp only [isAlpha, isUpper, Bool.or_eq_true, Bool.and_eq_true, decide_eq_true_eq] at hc
  simp only [isSpace, Bool.or_eq_false_iff, Bool.and_eq_false_iff, decide_eq_false_iff_not]
  omega

theorem sourceLine_append (i : Instr) (rest : List Char) :
    sourceLine i ++ rest = i.mnemonic ++ ' ' :: (threeDigits i.operand ++ '\n' :: rest) := by
  simp [sourceLine]

/-- R63 to R67: the line of an instruction writes its cell and is consumed. -/
theorem loadInstr_sourceLine {l : Loader} (i : Instr) (rest : List Char) (hla : l.la ≤ 127) :
    loadInstr l (sourceLine i ++ rest) =
      .ok { chars := rest
            la := l.la + 1
            mem := l.mem.writeCell (BitVec.ofNat 7 l.la) (encodeCell i) } := by
  have halpha := takeAlpha_append (cs := threeDigits i.operand ++ '\n' :: rest)
    (isAlpha_of_mem_mnemonic i) (c := ' ') rfl
  have hdigits := parseDecimal_digits l.la (ds := threeDigits i.operand) (rest := '\n' :: rest)
    (List.cons_ne_nil _ _) isDigit_of_mem_threeDigits (by rintro c cs h; cases h; rfl)
  have hfits : ¬Config.operandMax < i.operand.toNat := Nat.not_lt.2 (Nat.le_of_lt_succ i.operand.isLt)
  rw [digitsValue_threeDigits] at hdigits
  simp only [loadInstr, sourceLine_append, halpha, lookup_mnemonic, parseOperand_space, hdigits,
    if_neg hfits, placeInstr_of_le hla, BitVec.ofNat_toNat, BitVec.setWidth_eq]
  rfl

/-- R60, R63: a loop at the line of an instruction goes on after it. -/
theorem loadLoop_sourceLine {l : Loader} {i : Instr} {rest : List Char} (fuel : Nat)
    (hl : l.chars = sourceLine i ++ rest) (hla : l.la ≤ 127) :
    loadLoop (fuel + 1) l =
      loadLoop fuel { chars := rest
                      la := l.la + 1
                      mem := l.mem.writeCell (BitVec.ofNat 7 l.la) (encodeCell i) } := by
  have hline := loadInstr_sourceLine i rest hla
  obtain ⟨c, cs, hcs⟩ : ∃ c cs, i.mnemonic = c :: cs := by cases i <;> exact ⟨_, _, rfl⟩
  have hc : isAlpha c = true := isAlpha_of_mem_mnemonic i c (by simp [hcs])
  rw [sourceLine_append, hcs, List.cons_append] at hline hl
  have hskip : skipSpace l.chars = l.chars := by
    rw [hl, skipSpace, if_neg (by simp [isSpace_of_isAlpha hc])]
  rw [loadLoop, hskip, hl]
  simp only [loadItem_of_isAlpha l _ hc, hline]

/-! ### A program -/

/-- The memory after the cells of a program are written from `la` on. -/
def Memory.writeProgram : Memory → Nat → List Instr → Memory
  | m, _, [] => m
  | m, la, i :: is => (m.writeCell (BitVec.ofNat 7 la) (encodeCell i)).writeProgram (la + 1) is

/-- R59: the text of a program that fits writes its cells from the load address on. -/
theorem loadLoop_program {is : List Instr} {l : Loader} {fuel : Nat}
    (hl : l.chars = is.flatMap sourceLine) (hfuel : is.length < fuel) (hla : l.la + is.length ≤ 128) :
    loadLoop fuel l =
      .ok { chars := [], la := l.la + is.length, mem := l.mem.writeProgram l.la is } := by
  induction is generalizing l fuel with
  | nil =>
    obtain ⟨fuel, rfl⟩ := Nat.exists_eq_add_one.2 hfuel
    rw [loadLoop, hl]
    rfl
  | cons i is ih =>
    obtain ⟨fuel, rfl⟩ := Nat.exists_eq_add_one.2 (Nat.zero_lt_of_lt hfuel)
    simp only [List.length_cons] at hfuel hla ⊢
    rw [loadLoop_sourceLine fuel hl (by omega), ih rfl (by omega) (by simp only; omega)]
    simp only [Memory.writeProgram, Nat.add_assoc, Nat.add_comm 1]

theorem length_le_flatMap_sourceLine (is : List Instr) :
    is.length ≤ (is.flatMap sourceLine).length := by
  induction is with
  | nil => simp
  | cons i is ih =>
    simp only [List.flatMap_cons, List.length_append, List.length_cons, sourceLine]
    omega

/-- Cells below the program are left alone. -/
theorem Memory.readCell_writeProgram_below {is : List Instr} {m : Memory} {la : Nat} {a : Addr}
    (hla : la + is.length ≤ 128) (ha : a.toNat < la) :
    (m.writeProgram la is).readCell a = m.readCell a := by
  induction is generalizing m la with
  | nil => rfl
  | cons i is ih =>
    rw [List.length_cons] at hla
    have hne : a ≠ BitVec.ofNat 7 la := by
      rintro rfl
      rw [BitVec.toNat_ofNat, Nat.mod_eq_of_lt (by omega)] at ha
      omega
    rw [Memory.writeProgram, ih (by omega) (by omega), Memory.readCell_writeCell_ne m hne]

/-- From its first address on, a program's cells stand in order, and those after it are left alone. -/
theorem Memory.readCell_writeProgram {is : List Instr} {m : Memory} {la : Nat} {a : Addr}
    (hm : m.wf = true) (hla : la + is.length ≤ 128) (ha : la ≤ a.toNat) :
    (m.writeProgram la is).readCell a =
      (is[a.toNat - la]?.map encodeCell).getD (m.readCell a) := by
  induction is generalizing m la with
  | nil => simp [Memory.writeProgram]
  | cons i is ih =>
    rw [List.length_cons] at hla
    rw [Memory.writeProgram]
    obtain hfirst | hlater := Nat.eq_or_lt_of_le ha
    · have heq : a = BitVec.ofNat 7 la := by rw [hfirst, BitVec.ofNat_toNat, BitVec.setWidth_eq]
      rw [Memory.readCell_writeProgram_below (by omega) (by omega), ← heq,
        Memory.readCell_writeCell_same hm]
      simp [hfirst]
    · have hne : a ≠ BitVec.ofNat 7 la := by
        rintro rfl
        rw [BitVec.toNat_ofNat, Nat.mod_eq_of_lt (by omega)] at hlater
        omega
      have hidx : a.toNat - la = a.toNat - (la + 1) + 1 := by omega
      rw [ih (Memory.wf_writeCell hm) (by omega) hlater, Memory.readCell_writeCell_ne m hne, hidx,
        List.getElem?_cons_succ]

/-! ### The obligation -/

/-- Settles O54: the loop reads the program line by line, and the cells it writes stand in order. -/
theorem sourceTextLoadsAsItsEncoding : Obligations.SourceTextLoadsAsItsEncoding := by
  intro is his
  have hload := loadLoop_program (is := is) (l := Loader.fresh (is.flatMap sourceLine)) rfl
    (Nat.lt_succ_of_le (length_le_flatMap_sourceLine is)) (by simpa [Loader.fresh] using his)
  refine ⟨_, hload, Nat.zero_add is.length, fun a => ?_⟩
  have hread := Memory.readCell_writeProgram (is := is) (m := []) (la := 0) (a := a) rfl (by omega)
    (Nat.zero_le _)
  refine hread.trans ?_
  split <;> next h => simp [h]

end Sys2Proof.Machine
